-- ==== Sys2Proof/Word.lean ====
section
/-! DEFINITION. The fixed-width words of the core: a memory byte and a nibble of an instruction byte. -/

namespace Sys2Proof

/-- A memory cell, an instruction byte, a literal, a sensor reply (00_scope.md R6, R8). -/
abbrev Byte := BitVec 8

/-- The opcode field and the operand field of an instruction byte (30_encoding.md R80). -/
abbrev Nibble := BitVec 4

end Sys2Proof
end

