-- ==== Sys2Proof/Config.lean ====
section
/-! DEFINITION. What the implementation fixes: the parameters of 00_scope.md R7, and the sensor's free value. -/

namespace Sys2Proof

/-- The number of memory cells: "memory size 256 cells of 8 bits" (00_scope.md R6). -/
abbrev memSize : Nat := 256

/-- The parameters of 00_scope.md R7 that fix the machine's widths and its stack. They are data of the state and no
step writes them, so a statement for every state is a statement for every choice of them.
DESIGN CHOICE (log 1), safe. -/
structure Params where
  /-- XLEN: the width of a register. -/
  xlen : Nat
  /-- STACK_DEPTH: `none` is `unbounded`. -/
  stackDepth : Option Nat
  /-- ID_WIDTH: the width of the unit identifier. -/
  idWidth : Nat
deriving DecidableEq, Repr

/-- SW, the width of a stack entry and of the pc: `max(XLEN, 9)` (00_scope.md R7). -/
abbrev Params.sw (p : Params) : Nat := max p.xlen 9

/-- The constraints of 00_scope.md R7: `XLEN >= 8`, `STACK_DEPTH >= 1` or unbounded, `ID_WIDTH >= 1`. -/
def Params.valid (p : Params) : Bool :=
  decide (8 ≤ p.xlen) && decide (p.stackDepth ≠ some 0) && decide (1 ≤ p.idWidth)

/-- The parameters `State.reset` is given: `XLEN = 8` and an unbounded stack, as the spec's test vectors take them
(95_test_vectors.md, Conventions), and an 8-bit id. DESIGN CHOICE (log 2), unsafe. -/
def Params.atReset : Params := { xlen := 8, stackDepth := none, idWidth := 8 }

/-- FREE VALUE: the byte an attached sensor answers at its `n`-th read, where the state does not list the reply.
The port is "an oracle: each read draws a value in 0..255 that no rule of the core constrains" (44_io.md R152).
DESIGN CHOICE (log 5), safe for one unit; all units share the one function (log 28). -/
opaque Config.sensorByte (n : Nat) : Byte

end Sys2Proof
end

