-- ==== Sys2Proof/Syntax.lean ====
section
/-! DEFINITION. The instructions, one constructor per row of the opcode table, and the lines of a program. -/

namespace Sys2Proof

/-- The 16 rows of the opcode map (30_encoding.md R84). Only BEQZ, LOAD and CALL use the operand nibble (R85); the
others ignore it, so it is no part of them (log 15). The literal of LOADIMM is a byte of the program, read when
LOADIMM executes (41_memory_read.md R120, 70_reset_and_hazards.md R213): it is the second byte of a `Line`, not an
operand here (log 14). -/
inductive Instr where
  | nop
  | inc
  | print
  | add
  | loadimm
  | beqz (target : Nibble)
  | load (addr : Nibble)
  | sub
  | call (target : Nibble)
  | ret
  | push
  | pop
  | sense
  | nopD
  | nopE
  | nopF
deriving DecidableEq, Repr

/-- The number of bytes an instruction fetches: 2 for LOADIMM, otherwise 1 (30_encoding.md R82). -/
def Instr.length : Instr → Nat
  | .nop => 1
  | .inc => 1
  | .print => 1
  | .add => 1
  | .loadimm => 2
  | .beqz _ => 1
  | .load _ => 1
  | .sub => 1
  | .call _ => 1
  | .ret => 1
  | .push => 1
  | .pop => 1
  | .sense => 1
  | .nopD => 1
  | .nopE => 1
  | .nopF => 1

/-- An instruction with every byte of its encoding (30_encoding.md R81): format B1 has no literal, format B2 has
one. -/
structure Line where
  instr : Instr
  literal : Option Byte
deriving DecidableEq, Repr

/-- One listing line of 30_encoding.md R100: an instruction, or `.byte v` (a data byte, a skipped slot, or an
instruction written as its byte). -/
inductive Item where
  | code (line : Line)
  | byte (v : Byte)
deriving DecidableEq, Repr

end Sys2Proof
end

