-- ==== Sys2Proof/WellFormed.lean ====
section
/-! DEFINITION. Which program lines and which programs the encoding admits. -/

namespace Sys2Proof

/-- A line has a literal exactly when its format is B2, that is for LOADIMM (30_encoding.md R81, R82). The operand
fields are four bits wide by their type, so every value of them is admitted. -/
def Line.wellFormed (l : Line) : Bool := l.literal.isSome == decide (l.instr.length = 2)

/-- A listing item is well-formed when its line is; every data byte is (30_encoding.md R100). -/
def Item.wellFormed : Item → Bool
  | .code l => l.wellFormed
  | .byte _ => true

/-- A program that `load` accepts: "length ≤ 256" (30_encoding.md R90, 70_reset_and_hazards.md R219). -/
def programFits (bytes : List Byte) : Bool := decide (bytes.length ≤ memSize)

end Sys2Proof
end

