-- ==== Sys2Proof/Decode.lean ====
section
/-! DEFINITION. The opcode decoder, the parser of program bytes, and the encoder. -/

namespace Sys2Proof

/-- `opcode = byte[7:4]` (30_encoding.md R80). -/
def opcodeOf (b : Byte) : Nibble := b.extractLsb' 4 4

/-- `operand = byte[3:0]` (30_encoding.md R80). -/
def operandOf (b : Byte) : Nibble := b.extractLsb' 0 4

/-- The opcode map of 30_encoding.md R84: one of 16 rows, "no other bit takes part in selecting the instruction". The last arm is 0xF, the
one value left ("unmatched defaulting to NOP", R83). -/
def selectInstr (opcode operand : Nibble) : Instr :=
  match opcode with
  | 0x0#4 => .nop
  | 0x1#4 => .inc
  | 0x2#4 => .print
  | 0x3#4 => .add
  | 0x4#4 => .loadimm
  | 0x5#4 => .beqz operand
  | 0x6#4 => .load operand
  | 0x7#4 => .sub
  | 0x8#4 => .call operand
  | 0x9#4 => .ret
  | 0xA#4 => .push
  | 0xB#4 => .pop
  | 0xC#4 => .sense
  | 0xD#4 => .nopD
  | 0xE#4 => .nopE
  | _ => .nopF

/-- Decoding an instruction byte is total: all 256 values are valid first bytes (30_encoding.md R83). -/
def decodeByte (b : Byte) : Instr := selectInstr (opcodeOf b) (operandOf b)

/-- Why a byte sequence holds no whole line. -/
inductive DecodeError where
  /-- There is no first byte. -/
  | noByte
  /-- The first byte is a LOADIMM and its literal byte is missing (30_encoding.md R81, format B2). -/
  | literalMissing
deriving DecidableEq, Repr

/-- The first line of a byte sequence and the bytes after it; the first byte alone decides the length
(30_encoding.md R82). -/
def decode : List Byte → Except DecodeError (Line × List Byte)
  | [] => .error .noByte
  | b :: rest =>
    if (decodeByte b).length = 2 then
      match rest with
      | [] => .error .literalMissing
      | v :: rest' => .ok (⟨decodeByte b, some v⟩, rest')
    else .ok (⟨decodeByte b, none⟩, rest)

/-- The lines of a program read in sequence from its first byte, as sequential execution steps over them
(30_encoding.md R82, R90). -/
def disassemble : List Byte → Except DecodeError (List Line)
  | [] => .ok []
  | [b] => if (decodeByte b).length = 2 then .error .literalMissing else .ok [⟨decodeByte b, none⟩]
  | b :: v :: rest =>
    if (decodeByte b).length = 2 then (disassemble rest).map (⟨decodeByte b, some v⟩ :: ·)
    else (disassemble (v :: rest)).map (⟨decodeByte b, none⟩ :: ·)

/-- The bytes of a table word, bit 0 the least significant bit of the first byte; bits from `nbits` on are zero. -/
def tableBytes (nbits w : Nat) : List Byte :=
  [BitVec.ofNat 8 (w % 2 ^ nbits), BitVec.ofNat 8 (w % 2 ^ nbits / 256)]

/-- The instruction the decoder reads from the word `w` of `nbits` bits. -/
def decodeTableWord (nbits w : Nat) : Option Instr :=
  match decode (tableBytes nbits w) with
  | .ok (l, _) => some l.instr
  | .error _ => none

/-- The opcode field of each row (30_encoding.md R84). -/
def Instr.opcode : Instr → Nibble
  | .nop => 0x0#4
  | .inc => 0x1#4
  | .print => 0x2#4
  | .add => 0x3#4
  | .loadimm => 0x4#4
  | .beqz _ => 0x5#4
  | .load _ => 0x6#4
  | .sub => 0x7#4
  | .call _ => 0x8#4
  | .ret => 0x9#4
  | .push => 0xA#4
  | .pop => 0xB#4
  | .sense => 0xC#4
  | .nopD => 0xD#4
  | .nopE => 0xE#4
  | .nopF => 0xF#4

/-- The operand field: the target or address where the row uses it, 0 where the row ignores it
(30_encoding.md R84, R85, R100; DESIGN CHOICE log 15, safe). -/
def Instr.operand : Instr → Nibble
  | .nop => 0#4
  | .inc => 0#4
  | .print => 0#4
  | .add => 0#4
  | .loadimm => 0#4
  | .beqz t => t
  | .load a => a
  | .sub => 0#4
  | .call t => t
  | .ret => 0#4
  | .push => 0#4
  | .pop => 0#4
  | .sense => 0#4
  | .nopD => 0#4
  | .nopE => 0#4
  | .nopF => 0#4

/-- The first byte of an instruction: `opcode:4 | operand:4` (30_encoding.md R80). -/
def encodeByte (i : Instr) : Byte := i.opcode ++ i.operand

/-- The bytes of a line, the opcode byte at the lower address (30_encoding.md R81, 20_memory.md R57). -/
def encode (l : Line) : List Byte := encodeByte l.instr :: l.literal.toList

/-- The bytes of a program's lines in order. -/
def assemble (ls : List Line) : List Byte := ls.flatMap encode

/-- The bytes of a listing item (30_encoding.md R100). -/
def Item.encode : Item → List Byte
  | .code l => Sys2Proof.encode l
  | .byte v => [v]

/-- The bytes of a listing (30_encoding.md R100, R90). -/
def assembleItems (items : List Item) : List Byte := items.flatMap Item.encode

end Sys2Proof
end

