-- ==== Sys2Proof/Machine/State.lean ====
section
/-! DEFINITION. The state of one core as plain data, the reasons a step can stop, and the state after reset. -/

namespace Sys2Proof.Machine

/-- The memory, as the cells whose content is not the reset content 0x00 (10_state.md R43): addresses strictly
rising, no zero byte listed, so that equal contents are equal lists (log 18). `Memory.wf` in Ops.lean says so. -/
abbrev Memory := List Host.Cell

/-- The host-visible values of `run_state` (10_state.md R38, 70_reset_and_hazards.md R210). FETCH, DECODE and EXECUTE
are phases inside RUNNING and end within one step (R213). -/
inductive RunState where
  /-- Reset, no run started. -/
  | idle
  /-- A run is in progress. -/
  | running
  /-- The last run ended with `pc >= 256`. -/
  | halted
  /-- The last run ended with a fault. -/
  | faulted
deriving DecidableEq, Repr

/-- The run faults (60_exceptions.md R170). -/
inductive FaultKind where
  /-- LOADIMM's literal would lie past the end of memory (R171). -/
  | addressOutOfRange
  /-- RET or POP on an empty stack (R172). -/
  | stackUnderflow
  /-- CALL or PUSH on a full finite stack (R173). -/
  | stackOverflow
deriving DecidableEq, Repr

/-- The fault record (10_state.md R38). -/
structure FaultRecord where
  kind : FaultKind
  /-- The address of the first byte of the faulting instruction. -/
  fpc : Byte
  /-- The opcode of the faulting instruction. -/
  fopcode : Nibble
deriving DecidableEq, Repr

/-- An event on a port of the core, as the environment observes it (10_state.md R42). -/
inductive Event (p : Params) where
  /-- One value accepted by the print port (44_io.md R150). -/
  | print (v : BitVec p.xlen)
  /-- One read of the sensor port and the byte it answered (44_io.md R151). -/
  | sense (b : Byte)
deriving DecidableEq, Repr

/-- What is attached to the sensor port (44_io.md R152; DESIGN CHOICE log 4). -/
inductive Sensor where
  /-- No sensor: every read answers 0 (44_io.md R151). -/
  | absent
  /-- A sensor. `replies` are its next answers, in order; past them it answers the free value `Config.sensorByte`.
  `reads` counts its reads; it is the model's own field (log 5, log 6). -/
  | attached (replies : List Byte) (reads : Nat)
deriving DecidableEq, Repr

/-- One core with the parameters `p`: every piece of state of 10_state.md R20, the latch of R41, the histories of R42,
and what is attached to the sensor port. -/
structure Mcu (p : Params) where
  /-- 256 cells of 8 bits (R40). -/
  mem : Memory
  /-- The accumulator (R22). -/
  x0 : BitVec p.xlen
  /-- The second operand (R22). -/
  x1 : BitVec p.xlen
  /-- Written by no instruction (R22). -/
  x2 : BitVec p.xlen
  /-- Written by no instruction (R22). -/
  x3 : BitVec p.xlen
  /-- The stack, the top entry first (R31; log 20). -/
  stack : List (BitVec p.sw)
  /-- The program counter (R25). -/
  pc : BitVec p.sw
  /-- `run_state` (R38). -/
  runState : RunState
  /-- The fault record; `none` is kind 0 (R38). -/
  fault : Option FaultRecord
  /-- The unit identifier, a strap (R39). -/
  id : BitVec p.idWidth
  /-- The instruction latch (R41; log 13). -/
  ir : Byte
  /-- The port events so far, oldest first (R42; log 12). -/
  events : List (Event p)
  /-- What is attached to the sensor port. -/
  sensor : Sensor
deriving DecidableEq, Repr

/-- The state of the machine: the parameters of the implementation (log 1) and a core with those parameters. -/
structure State where
  params : Params
  mcu : Mcu params
deriving DecidableEq, Repr

/-- Why the model stops with a fault. A fault of the SPEC is not one of these: it is a next state (log 10). -/
inductive Fault where
  /-- Raised by `readCell` for a cell number of 256 or more: "addresses 0–255 are valid, all others are out of
  range" (20_memory.md R50). Safe: the model stops. No step reaches it, since every access is bounds-checked before
  it is made (20_memory.md R52 to R54). -/
  | noSuchCell (addr : Nat)
deriving DecidableEq, Repr

/-- Why the model gives no meaning. -/
inductive Refusal where
  /-- An instruction with no meaning yet. Raised by no arm: every instruction of the table has its meaning. -/
  | notModelled (mnemonic : String)
  /-- Raised by `atPc`: an instruction asked to execute at a pc of 256 or more, where there is no instruction
  (93_implementation_defined.md V7: `refuse`). Safe: the model stops. No step reaches it, since the halt test comes
  before the fetch (10_state.md R28). Log 11. -/
  | executeOutsideMemory
deriving DecidableEq, Repr

/-- A fresh unit (10_state.md R43) with the strapped identifier `id` and the attached sensor `sensor`. -/
def Mcu.fresh (p : Params) (id : BitVec p.idWidth) (sensor : Sensor) : Mcu p where
  mem := []
  x0 := 0#p.xlen
  x1 := 0#p.xlen
  x2 := 0#p.xlen
  x3 := 0#p.xlen
  stack := []
  pc := 0#p.sw
  runState := .idle
  fault := none
  id := id
  ir := 0x00#8
  events := []
  sensor := sensor

/-- The machine right after reset (10_state.md R43). The parameters are log 2's, the identifier is 1 (log 3,
DESIGN CHOICE, unsafe), and no sensor is attached, the spec's default (00_scope.md R7; log 4). -/
def State.reset : State := ⟨Params.atReset, Mcu.fresh Params.atReset 1#8 .absent⟩

end Sys2Proof.Machine
end

