-- ==== Sys2Proof/Machine/Ops.lean ====
section
/-! DEFINITION. The shared operations: memory, the register file, the program counter controller, the stack, the two
ports, and taking a fault. -/

namespace Sys2Proof.Machine

/-! ## Memory (20_memory.md) -/

/-- What a cell that no entry lists reads as: "every cell `0x00`" (10_state.md R43; log 18). -/
def resetByte : Byte := 0x00#8

/-- The content of cell `a` of the list. -/
def Memory.lookup : Memory → Nat → Byte
  | [], _ => resetByte
  | (k, v) :: rest, a => if k = a then v else Memory.lookup rest a

/-- `MemRead(a, 1)`: defined only for `0 <= a <= 255` (00_scope.md R9, 20_memory.md R50). -/
def Memory.read (m : Memory) (a : Nat) : Option Byte :=
  if a < memSize then some (Memory.lookup m a) else none

/-- The list with cell `a` holding `v`, in the canonical form: rising addresses, no entry equal to `resetByte`. -/
def Memory.put : Memory → Nat → Byte → Memory
  | [], a, v => if v = resetByte then [] else [(a, v)]
  | (k, u) :: rest, a, v =>
    if a < k then (if v = resetByte then (k, u) :: rest else (a, v) :: (k, u) :: rest)
    else if a = k then (if v = resetByte then rest else (a, v) :: rest)
    else (k, u) :: Memory.put rest a v

/-- `MemWrite(a, 1, v)` (00_scope.md R9): only the host's `load` uses it. A cell that does not exist is not written. -/
def Memory.write (m : Memory) (a : Nat) (v : Byte) : Memory :=
  if a < memSize then Memory.put m a v else m

/-- `MemWrite(a + i, 1, bytes[i])` for each byte in order (70_reset_and_hazards.md R219). -/
def Memory.writeAll (m : Memory) (a : Nat) : List Byte → Memory
  | [] => m
  | v :: rest => Memory.writeAll (Memory.write m a v) (a + 1) rest

/-- The canonical form from address `lo` on. -/
def Memory.wfFrom (lo : Nat) : Memory → Bool
  | [] => true
  | (k, v) :: rest =>
    decide (lo ≤ k) && decide (k < memSize) && decide (v ≠ resetByte) && Memory.wfFrom (k + 1) rest

/-- The canonical form: addresses strictly rising and below 256, no entry equal to what an unlisted cell reads as. -/
def Memory.wf (m : Memory) : Bool := Memory.wfFrom 0 m

/-! ## Outcomes -/

/-- The outcome of one step of the machine. -/
abbrev Outcome := Host.Outcome State Fault Refusal

/-- The outcome of an operation on one core. -/
abbrev Result (p : Params) := Host.Outcome (Mcu p) Fault Refusal

/-- An operation on the core of a state; the parameters stay as they are. -/
def onMcu (s : State) (f : Mcu s.params → Result s.params) : Outcome :=
  match f s.mcu with
  | .next m => .next ⟨s.params, m⟩
  | .fault e => .fault e
  | .refused r => .refused r

/-- An instruction executes only when `pc <= 255` (10_state.md R27, R28); elsewhere the execution is refused
(93_implementation_defined.md V7, 92_eei_decisions.md D25; log 11). -/
def atPc {p : Params} (m : Mcu p) (r : Result p) : Result p :=
  if m.pc.toNat < memSize then r else .refused .executeOutsideMemory

/-- Reading cell `a` and going on with its byte; a cell that does not exist faults (20_memory.md R50; log 10). -/
def readCell {p : Params} (m : Mcu p) (a : Nat) (k : Byte → Result p) : Result p :=
  match Memory.read m.mem a with
  | some b => k b
  | none => .fault (.noSuchCell a)

/-! ## Updates of the core's state -/

/-- `x[0] <- v`. -/
def Mcu.setX0 {p : Params} (m : Mcu p) (v : BitVec p.xlen) : Mcu p := { m with x0 := v }

/-- `x[1] <- v`. -/
def Mcu.setX1 {p : Params} (m : Mcu p) (v : BitVec p.xlen) : Mcu p := { m with x1 := v }

/-- `pc <- t`. -/
def Mcu.goto {p : Params} (m : Mcu p) (t : BitVec p.sw) : Mcu p := { m with pc := t }

/-- The stack becomes `st`, top first. -/
def Mcu.setStack {p : Params} (m : Mcu p) (st : List (BitVec p.sw)) : Mcu p := { m with stack := st }

/-- One more event on a port, after those before it (10_state.md R42). -/
def Mcu.emit {p : Params} (m : Mcu p) (e : Event p) : Mcu p := { m with events := m.events ++ [e] }

/-- The sensor after a read. -/
def Mcu.setSensor {p : Params} (m : Mcu p) (d : Sensor) : Mcu p := { m with sensor := d }

/-- The memory becomes `mem`: a host operation's doing, never an instruction's (20_memory.md R51). -/
def Mcu.setMem {p : Params} (m : Mcu p) (mem : Memory) : Mcu p := { m with mem := mem }

/-- `ir <- b` (70_reset_and_hazards.md R211). -/
def Mcu.latch {p : Params} (m : Mcu p) (b : Byte) : Mcu p := { m with ir := b }

/-- `run_state <- HALTED`, "and nothing else changes" (70_reset_and_hazards.md R211). -/
def Mcu.halt {p : Params} (m : Mcu p) : Mcu p := { m with runState := .halted }

/-- The start of a run: `pc <- 0`, `fault <- none`, `run_state <- RUNNING`; registers, stack and memory keep their
values (70_reset_and_hazards.md R220). It is the only way out of FAULTED but reset: there is no return from a fault
(60_exceptions.md R178). -/
def Mcu.startRun {p : Params} (m : Mcu p) : Mcu p :=
  { m with pc := 0#p.sw, fault := none, runState := .running }

/-- TAKING A FAULT, `raise F(pc, opcode)`: `fault <- (F, pc[7:0], opcode)`, `run_state <- FAULTED`, nothing else;
there is no handler and control goes nowhere (60_exceptions.md R175, R176). -/
def Mcu.raise {p : Params} (m : Mcu p) (kind : FaultKind) (opcode : Nibble) : Mcu p :=
  { m with fault := some ⟨kind, m.pc.setWidth 8, opcode⟩, runState := .faulted }

/-! ## The program counter controller (10_state.md R26): the four sources of the next pc -/

/-- The sequential source: `pc + 1`. -/
def Mcu.goSequential {p : Params} (m : Mcu p) : Mcu p := m.goto (m.pc + 1#p.sw)

/-- The two-byte skip: `pc + 2`. -/
def Mcu.goSkip {p : Params} (m : Mcu p) : Mcu p := m.goto (m.pc + 2#p.sw)

/-- The target source: `zext_SW(operand)`, absolute, 0..15 (42_control_transfer.md R135). -/
def Mcu.goTarget {p : Params} (m : Mcu p) (operand : Nibble) : Mcu p := m.goto (operand.setWidth p.sw)

/-- The return source: the value popped from the stack. -/
def Mcu.goReturn {p : Params} (m : Mcu p) (popped : BitVec p.sw) : Mcu p := m.goto popped

/-! ## The stack (10_state.md R31 to R36) -/

/-- `STACK_DEPTH` is finite and `Depth() == STACK_DEPTH` (70_reset_and_hazards.md R214). -/
def Mcu.full {p : Params} (m : Mcu p) : Bool := p.stackDepth == some m.stack.length

/-- `Push(v)` by the instruction with the given opcode, going on with the core after it; on a full stack
`StackOverflow`, and nothing is pushed (10_state.md R32, R35). -/
def pushStack {p : Params} (m : Mcu p) (opcode : Nibble) (v : BitVec p.sw) (k : Mcu p → Result p) : Result p :=
  if m.full then .next (m.raise .stackOverflow opcode) else k (m.setStack (v :: m.stack))

/-- `Pop()` by the instruction with the given opcode, going on with the popped entry and the core after it; on an
empty stack `StackUnderflow`, and nothing changes (10_state.md R32, R34). -/
def popStack {p : Params} (m : Mcu p) (opcode : Nibble) (k : BitVec p.sw → Mcu p → Result p) : Result p :=
  match m.stack with
  | [] => .next (m.raise .stackUnderflow opcode)
  | v :: rest => k v (m.setStack rest)

/-! ## The ports (44_io.md) -/

/-- `SensorRead()`: the byte answered and the sensor after the read (44_io.md R151, R152). Past the
listed replies the free value depends on the count of reads alone, so two units with equal counts draw the same byte:
DESIGN CHOICE (log 28), unsafe for a claim that compares the sensors of two units. -/
def Sensor.read : Sensor → Byte × Sensor
  | .absent => (0x00#8, .absent)
  | .attached (b :: rest) n => (b, .attached rest (n + 1))
  | .attached [] n => (Config.sensorByte n, .attached [] (n + 1))

/-- One read of the sensor port, its event, and the core going on with the byte (44_io.md R151). -/
def readSensor {p : Params} (m : Mcu p) (k : Byte → Mcu p → Result p) : Result p :=
  k m.sensor.read.1 ((m.setSensor m.sensor.read.2).emit (.sense m.sensor.read.1))

/-! ## Storing an instruction where the next step fetches -/

/-- The address the next `step` fetches from: the pc while a run is in progress, 0 where `step` starts one
(70_reset_and_hazards.md R217). -/
def fetchAddress {p : Params} (m : Mcu p) : Nat := if m.runState = .running then m.pc.toNat else 0

/-- The core with the bytes stored where the next `step` fetches. A run in progress whose pc is past the end of
memory would halt instead of fetching, so its pc is set to 0. -/
def Mcu.withFetchBytes {p : Params} (m : Mcu p) (bytes : List Byte) : Mcu p :=
  if fetchAddress m < memSize then m.setMem (Memory.writeAll m.mem (fetchAddress m) bytes)
  else (m.goto 0#p.sw).setMem (Memory.writeAll m.mem 0 bytes)

end Sys2Proof.Machine
end

