-- ==== Sys2Proof/Machine/Flags.lean ====
section
/-! DEFINITION. The core has no flags and no condition codes (10_state.md R37): nothing is computed or kept by an
arithmetic instruction but its result. The one condition of the instruction set is BEQZ's test. -/

namespace Sys2Proof.Machine

/-- BEQZ's test: all XLEN bits of `x[0]` as they stand (42_control_transfer.md R130). -/
def Mcu.accIsZero {p : Params} (m : Mcu p) : Bool := m.x0 == 0#p.xlen

end Sys2Proof.Machine
end

