-- ==== Sys2Proof/Machine/Operands.lean ====
section
/-! DEFINITION. The three operand forms (30_encoding.md R88) and the two widenings of a value into a register or a
stack entry. None is sign-extended, scaled or shifted. -/

namespace Sys2Proof.Machine

/-- `zext_XLEN` of a byte of memory or of the sensor: never sign-extended (41_memory_read.md R120, R121;
44_io.md R151). -/
def byteToReg (p : Params) (b : Byte) : BitVec p.xlen := b.setWidth p.xlen

/-- `zext_SW` of a register (43_stack.md R140). -/
def regToEntry (p : Params) (v : BitVec p.xlen) : BitVec p.sw := v.setWidth p.sw

/-- `trunc_XLEN` of a stack entry (43_stack.md R141). -/
def entryToReg (p : Params) (e : BitVec p.sw) : BitVec p.xlen := e.setWidth p.xlen

/-- The return address CALL pushes: `pc + 2`, absolute (42_control_transfer.md R131). -/
def Mcu.returnAddress {p : Params} (m : Mcu p) : BitVec p.sw := m.pc + 2#p.sw

/-- LOAD's address: `zext_8(operand)`, a cell in 0..15 (30_encoding.md R88, 20_memory.md R54). -/
def cellOfOperand (operand : Nibble) : Nat := (operand.setWidth 8).toNat

/-- The address of LOADIMM's literal: `pc + 1` (20_memory.md R51). -/
def Mcu.literalAddress {p : Params} (m : Mcu p) : Nat := m.pc.toNat + 1

/-- LOADIMM's literal: the bounds check of 20_memory.md R53 first, then the byte at `pc + 1`. -/
def readLiteral {p : Params} (m : Mcu p) (opcode : Nibble) (k : Byte → Result p) : Result p :=
  if memSize ≤ m.literalAddress then .next (m.raise .addressOutOfRange opcode)
  else readCell m m.literalAddress k

end Sys2Proof.Machine
end

