-- ==== Sys2Proof/Machine/Arithmetic.lean ====
section
/-! DEFINITION. INC, ADD, SUB (40_arithmetic.md): modulo 2^XLEN, no flag, no fault. -/

namespace Sys2Proof.Machine

/-- INC (40_arithmetic.md R110). -/
def execInc (s : State) : Outcome :=
  onMcu s fun m => atPc m (.next (m.setX0 (m.x0 + 1#s.params.xlen)).goSequential)

/-- ADD (40_arithmetic.md R111). -/
def execAdd (s : State) : Outcome :=
  onMcu s fun m => atPc m (.next (m.setX0 (m.x0 + m.x1)).goSequential)

/-- SUB (40_arithmetic.md R112). -/
def execSub (s : State) : Outcome :=
  onMcu s fun m => atPc m (.next (m.setX0 (m.x0 - m.x1)).goSequential)

end Sys2Proof.Machine
end

