-- ==== Sys2Proof/Machine/Control.lean ====
section
/-! DEFINITION. BEQZ, CALL, RET (42_control_transfer.md). -/

namespace Sys2Proof.Machine

/-- BEQZ (42_control_transfer.md R130). -/
def execBeqz (target : Nibble) (s : State) : Outcome :=
  onMcu s fun m => atPc m (.next (if m.accIsZero then m.goTarget target else m.goSequential))

/-- CALL (42_control_transfer.md R131): it fetches one byte, pushes `pc + 2`, and makes no bounds check. -/
def execCall (target : Nibble) (s : State) : Outcome :=
  onMcu s fun m => atPc m (pushStack m 0x8#4 m.returnAddress fun m' => .next (m'.goTarget target))

/-- RET (42_control_transfer.md R132): all SW bits of the popped entry. -/
def execRet (s : State) : Outcome :=
  onMcu s fun m => atPc m (popStack m 0x9#4 fun e m' => .next (m'.goReturn e))

end Sys2Proof.Machine
end

