-- ==== Sys2Proof/Machine/Environment.lean ====
section
/-! DEFINITION. PRINT and SENSE (44_io.md), the two instructions that reach the ports. -/

namespace Sys2Proof.Machine

/-- PRINT (44_io.md R150): one event carrying all XLEN bits of `x[0]`. The port always accepts (log 7). -/
def execPrint (s : State) : Outcome :=
  onMcu s fun m => atPc m (.next (m.emit (.print m.x0)).goSequential)

/-- SENSE (44_io.md R151): one read of the port. The port always answers (log 7). -/
def execSense (s : State) : Outcome :=
  onMcu s fun m =>
    atPc m (readSensor m fun b m' => .next (m'.setX0 (byteToReg s.params b)).goSequential)

end Sys2Proof.Machine
end

