-- ==== Sys2Proof/Machine/MemoryRead.lean ====
section
/-! DEFINITION. LOADIMM and LOAD (41_memory_read.md), the only instructions that read memory besides the fetch. -/

namespace Sys2Proof.Machine

/-- LOADIMM (41_memory_read.md R120): the destination is `x[1]`; the check comes before any read or write. -/
def execLoadimm (s : State) : Outcome :=
  onMcu s fun m => atPc m (readLiteral m 0x4#4 fun b => .next (m.setX1 (byteToReg s.params b)).goSkip)

/-- LOAD (41_memory_read.md R121). -/
def execLoad (addr : Nibble) (s : State) : Outcome :=
  onMcu s fun m =>
    atPc m (readCell m (cellOfOperand addr) fun b => .next (m.setX0 (byteToReg s.params b)).goSequential)

end Sys2Proof.Machine
end

