-- ==== Sys2Proof/Machine/Nop.lean ====
section
/-! DEFINITION. NOP and the reserved opcodes (45_nop_reserved.md): "reserved/no-op, not an error". -/

namespace Sys2Proof.Machine

/-- NOP, opcode 0 (45_nop_reserved.md R160). -/
def execNop (s : State) : Outcome := onMcu s fun m => atPc m (.next m.goSequential)

/-- NOP, opcode 0xD (45_nop_reserved.md R161). -/
def execNopD (s : State) : Outcome := onMcu s fun m => atPc m (.next m.goSequential)

/-- NOP, opcode 0xE (45_nop_reserved.md R162). -/
def execNopE (s : State) : Outcome := onMcu s fun m => atPc m (.next m.goSequential)

/-- NOP, opcode 0xF (45_nop_reserved.md R163). -/
def execNopF (s : State) : Outcome := onMcu s fun m => atPc m (.next m.goSequential)

end Sys2Proof.Machine
end

