-- ==== Sys2Proof/Machine/Stack.lean ====
section
/-! DEFINITION. PUSH and POP (43_stack.md). -/

namespace Sys2Proof.Machine

/-- PUSH (43_stack.md R140): the accumulator, zero-extended to a stack entry. -/
def execPush (s : State) : Outcome :=
  onMcu s fun m => atPc m (pushStack m 0xA#4 (regToEntry s.params m.x0) fun m' => .next m'.goSequential)

/-- POP (43_stack.md R141): the low XLEN bits of the entry. -/
def execPop (s : State) : Outcome :=
  onMcu s fun m =>
    atPc m (popStack m 0xB#4 fun e m' => .next (m'.setX0 (entryToReg s.params e)).goSequential)

end Sys2Proof.Machine
end

