-- ==== Sys2Proof/Machine/Dispatch.lean ====
section
/-! DEFINITION. EXECUTE (70_reset_and_hazards.md R213): one arm per row of the opcode table. -/

namespace Sys2Proof.Machine

/-- The effect of an instruction on the state, with `pc` the address its byte was fetched from. -/
def exec (i : Instr) (s : State) : Host.Outcome State Fault Refusal :=
  match i with
  | .nop => Sys2Proof.Machine.execNop s
  | .inc => Sys2Proof.Machine.execInc s
  | .print => Sys2Proof.Machine.execPrint s
  | .add => Sys2Proof.Machine.execAdd s
  | .loadimm => Sys2Proof.Machine.execLoadimm s
  | .beqz target => Sys2Proof.Machine.execBeqz target s
  | .load addr => Sys2Proof.Machine.execLoad addr s
  | .sub => Sys2Proof.Machine.execSub s
  | .call target => Sys2Proof.Machine.execCall target s
  | .ret => Sys2Proof.Machine.execRet s
  | .push => Sys2Proof.Machine.execPush s
  | .pop => Sys2Proof.Machine.execPop s
  | .sense => Sys2Proof.Machine.execSense s
  | .nopD => Sys2Proof.Machine.execNopD s
  | .nopE => Sys2Proof.Machine.execNopE s
  | .nopF => Sys2Proof.Machine.execNopF s

end Sys2Proof.Machine
end

