-- ==== Sys2Proof/Machine/Fsm.lean ====
section
/-! DEFINITION. The fetch-decode-execute machine (70_reset_and_hazards.md R210 to R217): FETCH, DECODE and EXECUTE of
one instruction as one indivisible step, and the host's `step`. -/

namespace Sys2Proof.Machine

/-- DECODE and EXECUTE of the byte `b` just fetched (70_reset_and_hazards.md R212, R213). -/
def executeByte (s : State) (b : Byte) : Outcome :=
  exec (decodeByte b) ⟨s.params, s.mcu.latch b⟩

/-- FETCH (70_reset_and_hazards.md R211): the halt test, then the byte at the pc into the latch; then DECODE and
EXECUTE. It applies while RUNNING (R214). -/
def stepInstruction (s : State) : Outcome :=
  if memSize ≤ s.mcu.pc.toNat then .next ⟨s.params, s.mcu.halt⟩
  else
    match Memory.read s.mcu.mem s.mcu.pc.toNat with
    | some b => executeByte s b
    | none => .fault (.noSuchCell s.mcu.pc.toNat)

/-- From IDLE, HALTED or FAULTED a run starts; a run in progress goes on from its pc
(70_reset_and_hazards.md R217, R220). -/
def beginRun (s : State) : State :=
  if s.mcu.runState = .running then s else ⟨s.params, s.mcu.startRun⟩

/-- The host operation `step` (70_reset_and_hazards.md R217): one instruction, after starting a run where none is in
progress. DEDUCED (log 8). -/
def hostStep (s : State) : Outcome := stepInstruction (beginRun s)

end Sys2Proof.Machine
end

