-- ==== Sys2Proof/Machine/HostOps.lean ====
section
/-! DEFINITION. The host operations (70_reset_and_hazards.md R215, R218 to R221) and the numbers of the status fields
(10_state.md R38, 60_exceptions.md R170). -/

namespace Sys2Proof.Machine

/-! ## reset, load, run -/

/-- `reset` (70_reset_and_hazards.md R218), accepted in every state: the fresh unit; the strapped id and the attached
sensor are kept (log 6). -/
def hostReset (s : State) : State := ⟨s.params, Mcu.fresh s.params s.mcu.id s.mcu.sensor⟩

/-- What `load` answers. -/
inductive LoadAnswer where
  /-- The program is in memory. -/
  | ok
  /-- The program has more than 256 bytes; nothing was written (70_reset_and_hazards.md R219). -/
  | programTooLarge
  /-- A run is in progress: `load` is not accepted (70_reset_and_hazards.md R219, R222; log 17). -/
  | notAccepted
deriving DecidableEq, Repr

/-- `load(program)` (70_reset_and_hazards.md R219): the bytes from address 0 on, only `mem` changes, and nothing at
all changes where it fails. -/
def hostLoad (program : List Byte) (s : State) : LoadAnswer × State :=
  if s.mcu.runState = .running then (.notAccepted, s)
  else if programFits program then (.ok, ⟨s.params, s.mcu.setMem (Memory.writeAll s.mcu.mem 0 program)⟩)
  else (.programTooLarge, s)

/-- The run loop `while run_state == RUNNING do step_instruction` (70_reset_and_hazards.md R215), for at most `fuel`
turns: the machine has no instruction limit, so a state still RUNNING says only that the fuel did not suffice
(R232; log 16). -/
def runLoop : Nat → State → Outcome
  | 0, s => .next s
  | fuel + 1, s =>
    if s.mcu.runState = .running then
      match stepInstruction s with
      | .next t => runLoop fuel t
      | .fault e => .fault e
      | .refused r => .refused r
    else .next s

/-- `run` (70_reset_and_hazards.md R220), for at most `fuel` turns of its loop. A state still RUNNING is one in the middle
of the run, where the host has no move: the host's `run` as a transaction is in Session.lean (R222). -/
def hostRun (fuel : Nat) (s : State) : Outcome := runLoop fuel (beginRun s)

/-- A run has ended at the first moment at which `run_state` is HALTED or FAULTED (70_reset_and_hazards.md R216). -/
def State.ended (s : State) : Bool := s.mcu.runState == .halted || s.mcu.runState == .faulted

/-- What `run` and `step` answer the host (70_reset_and_hazards.md R223). -/
inductive RunAnswer where
  | running
  | halted
  | faulted (record : FaultRecord)
deriving DecidableEq, Repr

/-- The answer read off the state after `run` or `step`; `none` in the states they never leave (IDLE, or FAULTED with
no record). -/
def State.runAnswer (s : State) : Option RunAnswer :=
  match s.mcu.runState, s.mcu.fault with
  | .running, _ => some .running
  | .halted, _ => some .halted
  | .faulted, some f => some (.faulted f)
  | .faulted, none => none
  | .idle, _ => none

/-! ## Numbers of the status fields -/

/-- `run_state` as 2 bits (10_state.md R38). -/
def RunState.code : RunState → BitVec 2
  | .idle => 0
  | .running => 1
  | .halted => 2
  | .faulted => 3

/-- `fault.kind` as 2 bits (10_state.md R38). -/
def FaultKind.code : FaultKind → BitVec 2
  | .addressOutOfRange => 1
  | .stackUnderflow => 2
  | .stackOverflow => 3

/-- The field `fault.kind`; 0 is NONE (10_state.md R38). -/
def Mcu.faultKindField {p : Params} (m : Mcu p) : BitVec 2 :=
  match m.fault with
  | none => 0
  | some f => f.kind.code

/-- The field `fault.fpc`; 0 where there is no fault (10_state.md R43; log 19). -/
def Mcu.faultPcField {p : Params} (m : Mcu p) : Byte :=
  match m.fault with
  | none => 0
  | some f => f.fpc

/-- The field `fault.fopcode`; 0 where there is no fault (10_state.md R43; log 19). -/
def Mcu.faultOpcodeField {p : Params} (m : Mcu p) : Nibble :=
  match m.fault with
  | none => 0
  | some f => f.fopcode

/-- Every error kind of the design (60_exceptions.md R170): the run faults, and the two that are no run faults. -/
inductive ErrorKind where
  | run (kind : FaultKind)
  /-- The failure of `load` (R174). -/
  | programTooLarge
  /-- The report of the network's `send` (R174, R198). -/
  | destinationNotFound
deriving DecidableEq, Repr

/-- The code of an error kind (60_exceptions.md R170). -/
def ErrorKind.code : ErrorKind → Nat
  | .run kind => kind.code.toNat
  | .programTooLarge => 4
  | .destinationNotFound => 5

/-- The error a `load` answers with, if any. -/
def LoadAnswer.error : LoadAnswer → Option ErrorKind
  | .ok => none
  | .programTooLarge => some .programTooLarge
  | .notAccepted => none

/-! ## Inspection -/

/-- What the host may read whenever it has control (70_reset_and_hazards.md R221): numbers, as the fields of
10_state.md R38 show them. -/
structure Inspection where
  /-- The 256 cells in address order. -/
  cells : List Byte
  /-- `x[0]` to `x[3]`. -/
  registers : List Nat
  /-- The stack, bottom to top. -/
  stack : List Nat
  depth : Nat
  pc : Nat
  runState : BitVec 2
  faultKind : BitVec 2
  faultPc : Byte
  faultOpcode : Nibble
  id : Nat
deriving DecidableEq, Repr

/-- Inspection (70_reset_and_hazards.md R221). -/
def inspect (s : State) : Inspection where
  cells := (List.range memSize).map (Memory.lookup s.mcu.mem)
  registers := [s.mcu.x0.toNat, s.mcu.x1.toNat, s.mcu.x2.toNat, s.mcu.x3.toNat]
  stack := (s.mcu.stack.map BitVec.toNat).reverse
  depth := s.mcu.stack.length
  pc := s.mcu.pc.toNat
  runState := s.mcu.runState.code
  faultKind := s.mcu.faultKindField
  faultPc := s.mcu.faultPcField
  faultOpcode := s.mcu.faultOpcodeField
  id := s.mcu.id.toNat

/-- The values sent to the print port, in order (10_state.md R42). -/
def printHistory {p : Params} : List (Event p) → List (BitVec p.xlen)
  | [] => []
  | .print v :: rest => v :: printHistory rest
  | .sense _ :: rest => printHistory rest

/-- The bytes the reads of the sensor port answered, in order (10_state.md R42). -/
def senseHistory {p : Params} : List (Event p) → List Byte
  | [] => []
  | .print _ :: rest => senseHistory rest
  | .sense b :: rest => b :: senseHistory rest

/-! ## Sequences of steps -/

/-- A sequence of `step` transactions. -/
def hostSteps : Nat → State → Outcome
  | 0, s => .next s
  | n + 1, s =>
    match hostStep s with
    | .next t => hostSteps n t
    | .fault e => .fault e
    | .refused r => .refused r

end Sys2Proof.Machine
end

