-- ==== Sys2Proof/Machine/Step.lean ====
section
/-! DEFINITION. The step of the machine, and an instruction stored where it fetches next. -/

namespace Sys2Proof.Machine

/-- One step: the host operation `step` (70_reset_and_hazards.md R217; log 8). -/
def step (s : State) : Host.Outcome State Fault Refusal := hostStep s

/-- `s` with the instruction whose bits are `w` stored where `step` fetches its next instruction (log 9). -/
def State.withFetchWord (s : State) (nbits w : Nat) : State :=
  ⟨s.params, s.mcu.withFetchBytes (tableBytes nbits w)⟩

end Sys2Proof.Machine
end

