-- ==== Sys2Proof/Machine/Session.lean ====
section
/-! DEFINITION. The core together with its host: who acts next, the moves of the host and of the core
(70_reset_and_hazards.md R222, R223). During a `run` the host has no move at all. -/

namespace Sys2Proof.Machine

/-- Who acts next. -/
inductive Control where
  /-- The host: no `run` is in progress, or the core stands between two `step`s. -/
  | host
  /-- The core: a `run` is in progress and the host is "itself occupied until `run` returns"
  (70_reset_and_hazards.md R222). -/
  | core
deriving DecidableEq, Repr

/-- A core and its host. `control` is the model's own field (log 25): it holds what R222 and the column "when" of R223
turn on, and RUNNING does not say, since a core between two `step`s is RUNNING too. -/
structure Session where
  control : Control
  state : State
deriving DecidableEq, Repr

/-- The host with the unit `s`. -/
def Session.atHost (s : State) : Session := ⟨.host, s⟩

/-- The test of the run loop, `while run_state == RUNNING` (70_reset_and_hazards.md R215): the run goes on, or it has
ended and the host has the control again (R220). -/
def Session.atLoopTest (s : State) : Session := ⟨if s.mcu.runState = .running then .core else .host, s⟩

/-- A fault or a refusal stays one, and a next state is handed on. -/
def mapNext {α β : Type} (f : α → β) (o : Host.Outcome α Fault Refusal) : Host.Outcome β Fault Refusal :=
  match o with
  | .next a => .next (f a)
  | .fault e => .fault e
  | .refused r => .refused r

/-- One transaction of the host that changes the core (70_reset_and_hazards.md R223). `execute` is none of them
(R222, 92_eei_decisions.md D25). -/
inductive HostOp where
  | reset
  | load (program : List Byte)
  | step
  | run
deriving DecidableEq, Repr

/-- A move of the host. There is none during a `run` (70_reset_and_hazards.md R222; `reset` among them, log 25). `run`
starts or continues a run and hands the control to the core (R220). -/
def hostMove (op : HostOp) (c : Session) : Option (Host.Outcome Session Fault Refusal) :=
  match c.control, op with
  | .core, _ => none
  | .host, .reset => some (.next (.atHost (hostReset c.state)))
  | .host, .load program => some (.next (.atHost (hostLoad program c.state).2))
  | .host, .step => some (mapNext .atHost (hostStep c.state))
  | .host, .run => some (.next (.atLoopTest (beginRun c.state)))

/-- A move of the core: one turn of the run loop (70_reset_and_hazards.md R215). There is none while the host has the
control. -/
def coreMove (c : Session) : Option (Host.Outcome Session Fault Refusal) :=
  match c.control with
  | .host => none
  | .core =>
    some (if c.state.mcu.runState = .running then mapNext .atLoopTest (stepInstruction c.state)
      else .next (.atHost c.state))

/-- The moves of the core, up to `n` of them, until the host has the control. -/
def coreMoves : Nat → Session → Host.Outcome Session Fault Refusal
  | 0, c => .next c
  | n + 1, c =>
    match coreMove c with
    | none => .next c
    | some (.next d) => coreMoves n d
    | some (.fault e) => .fault e
    | some (.refused r) => .refused r

/-- Inspection, while the host has the control (70_reset_and_hazards.md R221, R222). -/
def Session.inspect (c : Session) : Option Inspection :=
  match c.control with
  | .host => some (Machine.inspect c.state)
  | .core => none

end Sys2Proof.Machine
end

