-- ==== Sys2Proof/Machine/Network.lean ====
section
/-! DEFINITION. The platform around the core (60_exceptions.md R195 to R200), outside the CORE block (00_scope.md R4):
several units, the receipt port of a unit, and the network, which holds a reference to each registered unit. No step of
the core calls anything here. -/

namespace Sys2Proof.Machine

/-! ## The receipt port -/

/-- A receipt observation: "MCU <id> received from <source>: <message>" (60_exceptions.md R197). The source does not
fix the type `M` of messages. -/
structure Receipt (M : Type) where
  unitId : Nat
  source : Nat
  message : M
deriving DecidableEq, Repr

/-- The default human-readable record of a receipt (60_exceptions.md R197), the identifiers in decimal, a radix the spec
does not state: DESIGN CHOICE (log 27). -/
def Receipt.text (r : Receipt String) : String :=
  "MCU " ++ Nat.repr r.unitId ++ " received from " ++ Nat.repr r.source ++ ": " ++ r.message

/-- The message-receipt port of a unit: an observation and an unchanged core (60_exceptions.md R197). It is not accepted
while the unit is RUNNING (70_reset_and_hazards.md R223, the row `receive`). -/
def receive {M : Type} (source : Nat) (message : M) (s : State) : Option (Receipt M × State) :=
  if s.mcu.runState = .running then none else some (⟨s.mcu.id.toNat, source, message⟩, s)

/-- A delivery to a unit and its host: none during a `run` (60_exceptions.md R196, 70_reset_and_hazards.md R222). -/
def Session.receive {M : Type} (source : Nat) (message : M) (c : Session) : Option (Receipt M × Session) :=
  match c.control with
  | .core => none
  | .host => (Machine.receive source message c.state).map fun r => (r.1, .atHost r.2)

/-- The identifier of a unit. -/
def Session.unitId (c : Session) : Nat := c.state.mcu.id.toNat

/-! ## The network -/

/-- The network: the directory, from identifiers to non-owning references (60_exceptions.md R195). A reference is the
place of a unit on its platform, so a look-up finds the unit as it is now, whatever it has done since it was
registered. -/
structure Network where
  directory : List (Nat × Nat)
deriving DecidableEq, Repr

/-- The network is "created empty" (60_exceptions.md R195). -/
def Network.empty : Network := ⟨[]⟩

/-- The reference registered under an identifier. -/
def Network.find (n : Network) (id : Nat) : Option Nat := n.directory.lookup id

/-- The directory with `ref` under `id`; an earlier entry of that identifier is replaced: "last write wins"
(60_exceptions.md R195). -/
def Network.enter (n : Network) (id ref : Nat) : Network :=
  ⟨n.directory.filter (fun e => e.1 != id) ++ [(id, ref)]⟩

/-- The recipients of a broadcast: every registered unit except the source (60_exceptions.md R199). -/
def Network.recipients (n : Network) (source : Nat) : List Nat :=
  (n.directory.map Prod.fst).filter (· != source)

/-! ## The platform -/

/-- A platform: its units, each with its own state (60_exceptions.md R195: "Units share no state"), the network, and the
receipts observed so far, oldest first. -/
structure Platform (M : Type) where
  units : List Session
  network : Network
  receipts : List (Receipt M)
deriving DecidableEq, Repr

variable {M : Type}

/-- A platform with units and an empty network. -/
def Platform.create (M : Type) (units : List Session) : Platform M := ⟨units, .empty, []⟩

/-- The caller of a `run` is occupied until it returns (70_reset_and_hazards.md R222): the host has the control where
every unit's host has it. -/
def Platform.hostHasControl (n : Platform M) : Bool := n.units.all fun c => c.control == .host

/-- The unit registered under an identifier, as it is now. -/
def Platform.unitOf (n : Platform M) (id : Nat) : Option Session := (n.network.find id).bind (n.units[·]?)

/-- The platform with the unit at `ref` replaced by what became of it. -/
def Platform.setUnit (n : Platform M) (ref : Nat) (c : Session) : Platform M :=
  { n with units := n.units.set ref c }

/-- A move of the host on the unit at `ref`; none while any unit is in a `run` (60_exceptions.md R196, log 21). A
unit that stands RUNNING between two `step`s holds up no other: "at most one unit is running" is read as at most one in
a `run`. DEDUCED (log 26). -/
def Platform.hostMove (n : Platform M) (ref : Nat) (op : HostOp) : Option (Host.Outcome (Platform M) Fault Refusal) :=
  if n.hostHasControl then
    (n.units[ref]?).bind fun c => (Machine.hostMove op c).map (mapNext (n.setUnit ref))
  else none

/-- A move of the core of the unit at `ref`: one turn of its run loop. -/
def Platform.coreMove (n : Platform M) (ref : Nat) : Option (Host.Outcome (Platform M) Fault Refusal) :=
  (n.units[ref]?).bind fun c => (Machine.coreMove c).map (mapNext (n.setUnit ref))

/-- Inspection of the unit at `ref`; none while any unit is in a `run` (70_reset_and_hazards.md R221, R222). -/
def Platform.inspect (n : Platform M) (ref : Nat) : Option Inspection :=
  if n.hostHasControl then (n.units[ref]?).bind Session.inspect else none

/-- `register(unit)` (60_exceptions.md R195): the unit at `ref` goes into the directory under its id. It is an operation
of the host; `none` where there is no such unit or the host has no control. -/
def Platform.register (n : Platform M) (ref : Nat) : Option (Platform M) :=
  if n.hostHasControl then
    (n.units[ref]?).map fun c => { n with network := n.network.enter c.unitId ref }
  else none

/-- How a `send` ends. -/
inductive SendAnswer where
  | delivered
  /-- Non-fatal: reported, the sender unaffected (60_exceptions.md R174, R198). -/
  | destinationNotFound
  /-- A `run` is in progress, or the destination is RUNNING between two `step`s: not accepted (log 21). -/
  | notAccepted
deriving DecidableEq, Repr

/-- `send(source_id, destination_id, message)` (60_exceptions.md R198): the receipt port of the unit that the directory
refers to is invoked. -/
def Platform.send (n : Platform M) (source dest : Nat) (message : M) : SendAnswer × Platform M :=
  if n.hostHasControl then
    match n.network.find dest with
    | none => (.destinationNotFound, n)
    | some ref =>
      match n.units[ref]? with
      | none => (.destinationNotFound, n)
      | some c =>
        match c.receive source message with
        | none => (.notAccepted, n)
        | some (r, c') => (.delivered, { n.setUnit ref c' with receipts := n.receipts ++ [r] })
  else (.notAccepted, n)

/-- Deliveries to the units of a list, one after another; one that is not delivered does not stop the others
(60_exceptions.md R199: "best-effort"). -/
def Platform.deliverAll (source : Nat) (message : M) : List Nat → Platform M → Platform M
  | [], n => n
  | dest :: rest, n => Platform.deliverAll source message rest (n.send source dest message).2

/-- `broadcast(source_id, message)` with the deliveries in the order `order` (60_exceptions.md R199). The order is
unspecified (93_implementation_defined.md U2): any permutation of the recipients is one, and nothing else is (log 21).
It is an operation of the host, so `none` while a `run` is in progress. -/
def Platform.broadcast (n : Platform M) (source : Nat) (message : M) (order : List Nat) : Option (Platform M) :=
  if n.hostHasControl && order.isPerm (n.network.recipients source) then
    some (Platform.deliverAll source message order n)
  else none

end Sys2Proof.Machine
end

