-- ==== Sys2Proof/Safety.lean ====
section
/-! DEFINITION. The terms claims are stated in: the invariant of the machine, what the host can bring it to, runs that
have ended, sequences of instructions, and the invariant of a platform. -/

namespace Sys2Proof.Machine

/-- The record `f` describes a fault that an instruction standing at the pc of `m` raised and that changed nothing
(60_exceptions.md R170 to R173, R176). -/
def Mcu.FaultAt {p : Params} (m : Mcu p) (f : FaultRecord) : Prop :=
  f.fpc.toNat = m.pc.toNat ∧ f.fopcode = opcodeOf m.ir ∧
    match f.kind with
    | .addressOutOfRange => f.fopcode = 0x4#4 ∧ m.pc.toNat = 255
    | .stackUnderflow => (f.fopcode = 0x9#4 ∨ f.fopcode = 0xB#4) ∧ m.stack = []
    | .stackOverflow => (f.fopcode = 0x8#4 ∨ f.fopcode = 0xA#4) ∧ p.stackDepth = some m.stack.length

/-- The invariant of one core. -/
structure Mcu.Inv {p : Params} (m : Mcu p) : Prop where
  /-- The memory keeps its canonical form (log 18). -/
  memWf : Memory.wf m.mem = true
  /-- The stack holds at most STACK_DEPTH entries (10_state.md R20, R35). -/
  stackFits : ∀ d, p.stackDepth = some d → m.stack.length ≤ d
  /-- `fault.kind != 0` exactly when `run_state == FAULTED` (10_state.md R38). -/
  faultIff : m.fault.isSome = true ↔ m.runState = .faulted
  /-- The record is that of the instruction at the pc (60_exceptions.md R176). -/
  faultPrecise : ∀ f, m.fault = some f → m.FaultAt f
  /-- HALTED only past the end of memory (70_reset_and_hazards.md R216). -/
  haltedPc : m.runState = .halted → 256 ≤ m.pc.toNat
  /-- IDLE only with the pc of reset (10_state.md R43). -/
  idlePc : m.runState = .idle → m.pc.toNat = 0
  /-- `x[2]` and `x[3]` hold 0 (10_state.md R22). -/
  unusedZero : m.x2 = 0#p.xlen ∧ m.x3 = 0#p.xlen
  /-- With 8-bit registers no entry exceeds the greatest return address, 257 (43_stack.md R141). -/
  narrowStack : p.xlen = 8 → ∀ e ∈ m.stack, e.toNat ≤ 257
  /-- With 8-bit registers the pc never exceeds 257 (70_reset_and_hazards.md R216, 42_control_transfer.md R132). -/
  narrowPc : p.xlen = 8 → m.pc.toNat ≤ 257
  /-- The identifier is never zero (10_state.md R39). -/
  idNonzero : m.id.toNat ≠ 0

/-- The invariant of the machine: legal parameters and a core that meets its invariant. -/
def State.Inv (s : State) : Prop := s.params.valid = true ∧ s.mcu.Inv

/-- The invariant of a core and its host: the control is the core's only while a run is in progress. -/
structure Session.Inv (c : Session) : Prop where
  state : c.state.Inv
  running : c.control = .core → c.state.mcu.runState = .running

/-- What the host and the core can bring a unit to: any fresh unit with legal parameters and a legal identifier, then
any sequence of moves of the host, loads of any program among them, and moves of the core. During a `run` the core alone
moves (70_reset_and_hazards.md R222, R223). -/
inductive Reachable : Session → Prop where
  | fresh (p : Params) (id : BitVec p.idWidth) (sensor : Sensor) (hp : p.valid = true) (hid : id.toNat ≠ 0) :
      Reachable (.atHost ⟨p, Mcu.fresh p id sensor⟩)
  | host (c d : Session) (op : HostOp) (hc : Reachable c) (hd : hostMove op c = some (.next d)) : Reachable d
  | core (c d : Session) (hc : Reachable c) (hd : coreMove c = some (.next d)) : Reachable d

/-- A `run` from `s` ends in `t` (70_reset_and_hazards.md R216, R220). -/
def RunEndsIn (s t : State) : Prop := ∃ fuel, hostRun fuel s = .next t ∧ t.ended = true

/-- A sequence of `step` calls from `s` ends in `t`: every call before the last leaves RUNNING
(70_reset_and_hazards.md R217). -/
def StepsEndIn (s t : State) : Prop :=
  ∃ n, hostSteps (n + 1) s = .next t ∧ t.ended = true ∧
    ∀ k u, 1 ≤ k → k ≤ n → hostSteps k s = .next u → u.mcu.runState = .running

/-- The effect of a sequence of instructions, one after another. -/
def execSeq : List Instr → State → Outcome
  | [], s => .next s
  | i :: rest, s =>
    match exec i s with
    | .next t => execSeq rest t
    | .fault e => .fault e
    | .refused r => .refused r

/-- The invariant of a platform. -/
structure Platform.Inv {M : Type} (n : Platform M) : Prop where
  /-- Every unit, on its own, meets its invariant. -/
  units : ∀ c ∈ n.units, c.Inv
  /-- The keys of the directory are unique (60_exceptions.md R195). -/
  keysUnique : (n.network.directory.map Prod.fst).Nodup
  /-- Every entry refers to a unit of the platform that has the entry's identifier. -/
  entriesRefer : ∀ e ∈ n.network.directory, ∃ c, n.units[e.2]? = some c ∧ c.unitId = e.1
  /-- At most one unit is in a `run` at any moment (60_exceptions.md R196; "running" read as in a `run`, log 26). -/
  oneInRun : ∀ (i j : Nat) (c d : Session), n.units[i]? = some c → n.units[j]? = some d →
    c.control = .core → d.control = .core → i = j

/-- From `n` to `n'` the unit at `ref` alone moved, from `c` to `d`, and the directory finds it as it is now. -/
structure Platform.UnitMoved {M : Type} (n n' : Platform M) (ref : Nat) (c d : Session) : Prop where
  before : n.units[ref]? = some c
  after : n'.units[ref]? = some d
  others : ∀ j, j ≠ ref → n'.units[j]? = n.units[j]?
  network : n'.network = n.network
  receipts : n'.receipts = n.receipts
  found : ∀ id, n.network.find id = some ref → n'.unitOf id = some d

end Sys2Proof.Machine
end

