-- ==== Sys2Proof/Certificates/Slice0/Obligations.lean ====
section
/-! DEFINITION. The statements for the provers. A core is written `⟨p, m⟩`, its parameters and its state, so each
statement holds for every XLEN, STACK_DEPTH and ID_WIDTH it does not restrict. A frame is written as an equation
`t = { m with … }` that lists every field that may change, and once more through the read of a cell. -/

open Sys2Proof Sys2Proof.Machine

/-! ## Encoding -/

/-- Instruction bytes written out bit by bit from the opcode map, most of them the source's own, decode to their
instructions, ignored nibbles of any value among them (95_test_vectors.md, Part 2, Decode). -/
def Obligations.WrittenBytesDecode : Prop :=
  decodeByte 0b00010001#8 = .inc ∧ decodeByte 0b00100001#8 = .print ∧ decodeByte 0b00110001#8 = .add ∧
  decodeByte 0b01000001#8 = .loadimm ∧ decodeByte 0b01011011#8 = .beqz 11 ∧ decodeByte 0b01101111#8 = .load 15 ∧
  decodeByte 0b01110000#8 = .sub ∧ decodeByte 0b10000001#8 = .call 1 ∧ decodeByte 0b10010001#8 = .ret ∧
  decodeByte 0b10100000#8 = .push ∧ decodeByte 0b10110000#8 = .pop ∧ decodeByte 0b11000000#8 = .sense ∧
  decodeByte 0b00000000#8 = .nop ∧ decodeByte 0b11010101#8 = .nopD ∧ decodeByte 0b11100000#8 = .nopE ∧
  decodeByte 0b11111111#8 = .nopF

/-- 30_encoding.md R84: the opcode map, all 16 rows, with the format's length and the use of the operand nibble. -/
def Obligations.DecoderFollowsOpcodeMap : Prop :=
  ∀ n : Nibble,
    decodeByte (0x0#4 ++ n) = .nop ∧ decodeByte (0x1#4 ++ n) = .inc ∧ decodeByte (0x2#4 ++ n) = .print ∧
    decodeByte (0x3#4 ++ n) = .add ∧ decodeByte (0x4#4 ++ n) = .loadimm ∧ decodeByte (0x5#4 ++ n) = .beqz n ∧
    decodeByte (0x6#4 ++ n) = .load n ∧ decodeByte (0x7#4 ++ n) = .sub ∧ decodeByte (0x8#4 ++ n) = .call n ∧
    decodeByte (0x9#4 ++ n) = .ret ∧ decodeByte (0xA#4 ++ n) = .push ∧ decodeByte (0xB#4 ++ n) = .pop ∧
    decodeByte (0xC#4 ++ n) = .sense ∧ decodeByte (0xD#4 ++ n) = .nopD ∧ decodeByte (0xE#4 ++ n) = .nopE ∧
    decodeByte (0xF#4 ++ n) = .nopF ∧
    ∀ b : Byte, ((decodeByte b).length = 2 ↔ opcodeOf b = 0x4#4) ∧ ((decodeByte b).length = 1 ↔ opcodeOf b ≠ 0x4#4)

/-- The operand nibble is used by exactly three opcodes (30_encoding.md section 2): bytes with one opcode and two
nibbles are the same instruction exactly when the opcode is not 5, 6 or 8. -/
def Obligations.OperandUsedByThreeOpcodes : Prop :=
  ∀ (op n n' : Nibble), n ≠ n' →
    (decodeByte (op ++ n) = decodeByte (op ++ n') ↔ op ≠ 0x5#4 ∧ op ≠ 0x6#4 ∧ op ≠ 0x8#4)

/-- Decoding the encoding of a well-formed line gives the line back, its literal at every value, and leaves the bytes
after it. -/
def Obligations.DecodeOfEncodeIsTheLine : Prop :=
  ∀ (l : Line) (rest : List Byte), l.wellFormed = true → decode (encode l ++ rest) = .ok (l, rest)

/-- The other direction: what the decoder reads is a well-formed line whose bytes are the ones read, up to the operand
nibble where the opcode ignores it; and the decoder refuses only an empty sequence and a LOADIMM with no literal. -/
def Obligations.DecodedLineHasTheBytesRead : Prop :=
  (∀ (bs : List Byte) (l : Line) (rest : List Byte), decode bs = .ok (l, rest) →
    l.wellFormed = true ∧
      ∃ b, bs = b :: (l.literal.toList ++ rest) ∧ decodeByte b = l.instr ∧ opcodeOf b = l.instr.opcode ∧
        (opcodeOf b = 0x5#4 ∨ opcodeOf b = 0x6#4 ∨ opcodeOf b = 0x8#4 → encode l ++ rest = bs)) ∧
  (∀ (bs : List Byte) (e : DecodeError), decode bs = .error e →
    (bs = [] ∧ e = .noByte) ∨ (∃ b, bs = [b] ∧ opcodeOf b = 0x4#4 ∧ e = .literalMissing))

/-- The bytes of any program of well-formed lines, read in sequence, give the lines back. -/
def Obligations.DisassembleOfAssembleIsTheProgram : Prop :=
  ∀ ls : List Line, (∀ l ∈ ls, l.wellFormed = true) → disassemble (assemble ls) = .ok ls

/-! ## The instructions: result, frame, and that each goes on -/

/-- 45_nop_reserved.md R160 to R163: the four opcodes advance the pc by 1 and change nothing else; from 255 the run
then halts. -/
def Obligations.NopsOnlyAdvance : Prop :=
  (∀ n : Nibble, decodeByte (0x0#4 ++ n) = .nop ∧ decodeByte (0xD#4 ++ n) = .nopD ∧
    decodeByte (0xE#4 ++ n) = .nopE ∧ decodeByte (0xF#4 ++ n) = .nopF) ∧
  ∀ (i : Instr) (p : Params) (m : Mcu p), i = .nop ∨ i = .nopD ∨ i = .nopE ∨ i = .nopF → m.pc.toNat ≤ 255 →
    ∃ t : Mcu p, exec i ⟨p, m⟩ = .next ⟨p, t⟩ ∧ t.pc.toNat = m.pc.toNat + 1 ∧ t = { m with pc := t.pc } ∧
      (m.pc.toNat = 255 → m.runState = .running → step ⟨p, t⟩ = .next ⟨p, { t with runState := .halted }⟩) ∧
      ∀ a, Memory.read t.mem a = Memory.read m.mem a

/-- 40_arithmetic.md R110. -/
def Obligations.IncAddsOneModulo : Prop :=
  (∀ n : Nibble, decodeByte (0x1#4 ++ n) = .inc) ∧
  ∀ (p : Params) (m : Mcu p), m.pc.toNat ≤ 255 →
    ∃ t : Mcu p, exec .inc ⟨p, m⟩ = .next ⟨p, t⟩ ∧ t.x0.toNat = (m.x0.toNat + 1) % 2 ^ p.xlen ∧
      t.pc.toNat = m.pc.toNat + 1 ∧ t = { m with x0 := t.x0, pc := t.pc } ∧
      ∀ a, Memory.read t.mem a = Memory.read m.mem a

/-- 40_arithmetic.md R111. -/
def Obligations.AddAddsModulo : Prop :=
  (∀ n : Nibble, decodeByte (0x3#4 ++ n) = .add) ∧
  ∀ (p : Params) (m : Mcu p), m.pc.toNat ≤ 255 →
    ∃ t : Mcu p, exec .add ⟨p, m⟩ = .next ⟨p, t⟩ ∧ t.x0.toNat = (m.x0.toNat + m.x1.toNat) % 2 ^ p.xlen ∧
      t.pc.toNat = m.pc.toNat + 1 ∧ t = { m with x0 := t.x0, pc := t.pc } ∧
      ∀ a, Memory.read t.mem a = Memory.read m.mem a

/-- 40_arithmetic.md, section 1, SUB. That a negative difference wraps to an unsigned pattern is the spec's own
decision D3 (log 22). -/
def Obligations.SubSubtractsModulo : Prop :=
  (∀ n : Nibble, decodeByte (0x7#4 ++ n) = .sub) ∧
  ∀ (p : Params) (m : Mcu p), m.pc.toNat ≤ 255 →
    ∃ t : Mcu p, exec .sub ⟨p, m⟩ = .next ⟨p, t⟩ ∧
      t.x0.toNat = (m.x0.toNat + 2 ^ p.xlen - m.x1.toNat) % 2 ^ p.xlen ∧
      t.pc.toNat = m.pc.toNat + 1 ∧ t = { m with x0 := t.x0, pc := t.pc } ∧
      ∀ a, Memory.read t.mem a = Memory.read m.mem a

/-- 41_memory_read.md R120: below 255 the zero-extended byte at `pc + 1` goes to `x[1]` (from 254 the run
then halts); at 255 the instruction raises AddressOutOfRange and changes nothing else. -/
def Obligations.LoadimmLoadsLiteral : Prop :=
  (∀ n : Nibble, decodeByte (0x4#4 ++ n) = .loadimm) ∧
  ∀ (p : Params) (m : Mcu p), p.valid = true →
    (m.pc.toNat < 255 →
      ∃ (t : Mcu p) (b : Byte), exec .loadimm ⟨p, m⟩ = .next ⟨p, t⟩ ∧
        Memory.read m.mem (m.pc.toNat + 1) = some b ∧ t.x1.toNat = b.toNat ∧ t.pc.toNat = m.pc.toNat + 2 ∧
        t = { m with x1 := t.x1, pc := t.pc } ∧
        (m.pc.toNat = 254 → m.runState = .running → step ⟨p, t⟩ = .next ⟨p, { t with runState := .halted }⟩) ∧
        ∀ a, Memory.read t.mem a = Memory.read m.mem a) ∧
    (m.pc.toNat = 255 →
      exec .loadimm ⟨p, m⟩ =
        .next ⟨p, { m with fault := some ⟨.addressOutOfRange, 255#8, 0x4#4⟩, runState := .faulted }⟩)

/-- 41_memory_read.md R121. -/
def Obligations.LoadReadsLowCell : Prop :=
  (∀ n : Nibble, decodeByte (0x6#4 ++ n) = .load n) ∧
  ∀ (addr : Nibble) (p : Params) (m : Mcu p), p.valid = true → m.pc.toNat ≤ 255 →
    ∃ (t : Mcu p) (b : Byte), exec (.load addr) ⟨p, m⟩ = .next ⟨p, t⟩ ∧
      Memory.read m.mem addr.toNat = some b ∧ t.x0.toNat = b.toNat ∧ t.pc.toNat = m.pc.toNat + 1 ∧
      t = { m with x0 := t.x0, pc := t.pc } ∧ ∀ a, Memory.read t.mem a = Memory.read m.mem a

/-- 42_control_transfer.md R130. -/
def Obligations.BeqzBranchesOnZero : Prop :=
  (∀ n : Nibble, decodeByte (0x5#4 ++ n) = .beqz n) ∧
  ∀ (target : Nibble) (p : Params) (m : Mcu p), m.pc.toNat ≤ 255 →
    ∃ t : Mcu p, exec (.beqz target) ⟨p, m⟩ = .next ⟨p, t⟩ ∧
      t.pc.toNat = (if m.x0.toNat = 0 then target.toNat else m.pc.toNat + 1) ∧ t = { m with pc := t.pc } ∧
      ∀ a, Memory.read t.mem a = Memory.read m.mem a

/-- 42_control_transfer.md, section 1, CALL: `pc + 2` is pushed, the pc goes to the target. The clause of the full
finite stack is the spec's own decision D5 (log 22). -/
def Obligations.CallPushesReturnAddress : Prop :=
  (∀ n : Nibble, decodeByte (0x8#4 ++ n) = .call n) ∧
  ∀ (target : Nibble) (p : Params) (m : Mcu p), m.pc.toNat ≤ 255 →
    (p.stackDepth ≠ some m.stack.length →
      ∃ (t : Mcu p) (e : BitVec p.sw), exec (.call target) ⟨p, m⟩ = .next ⟨p, t⟩ ∧ t.stack = e :: m.stack ∧
        e.toNat = m.pc.toNat + 2 ∧ t.pc.toNat = target.toNat ∧ t = { m with stack := t.stack, pc := t.pc } ∧
        ∀ a, Memory.read t.mem a = Memory.read m.mem a) ∧
    (p.stackDepth = some m.stack.length →
      exec (.call target) ⟨p, m⟩ =
        .next ⟨p, { m with fault := some ⟨.stackOverflow, BitVec.ofNat 8 m.pc.toNat, 0x8#4⟩,
                           runState := .faulted }⟩)

/-- 42_control_transfer.md, section 1, RET: all SW bits of the popped entry (a value of 256 or more then halts the run,
the spec's own decision D8, log 22); on an empty stack StackUnderflow. -/
def Obligations.RetJumpsToTop : Prop :=
  (∀ n : Nibble, decodeByte (0x9#4 ++ n) = .ret) ∧
  ∀ (p : Params) (m : Mcu p), m.pc.toNat ≤ 255 →
    (∀ (e : BitVec p.sw) (rest : List (BitVec p.sw)), m.stack = e :: rest →
      ∃ t : Mcu p, exec .ret ⟨p, m⟩ = .next ⟨p, t⟩ ∧ t = { m with stack := rest, pc := e } ∧
        (256 ≤ e.toNat → m.runState = .running → step ⟨p, t⟩ = .next ⟨p, { t with runState := .halted }⟩) ∧
        ∀ a, Memory.read t.mem a = Memory.read m.mem a) ∧
    (m.stack = [] →
      exec .ret ⟨p, m⟩ =
        .next ⟨p, { m with fault := some ⟨.stackUnderflow, BitVec.ofNat 8 m.pc.toNat, 0x9#4⟩,
                           runState := .faulted }⟩)

/-- 43_stack.md, section 1, PUSH: the zero-extended accumulator is pushed. The widening is the spec's own decision D4
and the clause of the full finite stack its decision D5 (log 22). -/
def Obligations.PushPushesAccumulator : Prop :=
  (∀ n : Nibble, decodeByte (0xA#4 ++ n) = .push) ∧
  ∀ (p : Params) (m : Mcu p), m.pc.toNat ≤ 255 →
    (p.stackDepth ≠ some m.stack.length →
      ∃ (t : Mcu p) (e : BitVec p.sw), exec .push ⟨p, m⟩ = .next ⟨p, t⟩ ∧ t.stack = e :: m.stack ∧
        e.toNat = m.x0.toNat ∧ t.pc.toNat = m.pc.toNat + 1 ∧ t = { m with stack := t.stack, pc := t.pc } ∧
        ∀ a, Memory.read t.mem a = Memory.read m.mem a) ∧
    (p.stackDepth = some m.stack.length →
      exec .push ⟨p, m⟩ =
        .next ⟨p, { m with fault := some ⟨.stackOverflow, BitVec.ofNat 8 m.pc.toNat, 0xA#4⟩,
                           runState := .faulted }⟩)

/-- 43_stack.md, section 1, POP: the low XLEN bits of the popped entry; on an empty stack StackUnderflow. -/
def Obligations.PopPopsIntoAccumulator : Prop :=
  (∀ n : Nibble, decodeByte (0xB#4 ++ n) = .pop) ∧
  ∀ (p : Params) (m : Mcu p), m.pc.toNat ≤ 255 →
    (∀ (e : BitVec p.sw) (rest : List (BitVec p.sw)), m.stack = e :: rest →
      ∃ t : Mcu p, exec .pop ⟨p, m⟩ = .next ⟨p, t⟩ ∧ t.x0.toNat = e.toNat % 2 ^ p.xlen ∧
        t.pc.toNat = m.pc.toNat + 1 ∧ t = { m with x0 := t.x0, stack := rest, pc := t.pc } ∧
        ∀ a, Memory.read t.mem a = Memory.read m.mem a) ∧
    (m.stack = [] →
      exec .pop ⟨p, m⟩ =
        .next ⟨p, { m with fault := some ⟨.stackUnderflow, BitVec.ofNat 8 m.pc.toNat, 0xB#4⟩,
                           runState := .faulted }⟩)

/-- 44_io.md, section 1, PRINT: one event with all XLEN bits of `x[0]`. That the port never refuses is the spec's own
decision D18 (log 7). -/
def Obligations.PrintEmitsAccumulator : Prop :=
  (∀ n : Nibble, decodeByte (0x2#4 ++ n) = .print) ∧
  ∀ (p : Params) (m : Mcu p), m.pc.toNat ≤ 255 →
    ∃ t : Mcu p, exec .print ⟨p, m⟩ = .next ⟨p, t⟩ ∧ t.events = m.events ++ [.print m.x0] ∧
      t.pc.toNat = m.pc.toNat + 1 ∧ t = { m with events := t.events, pc := t.pc } ∧
      ∀ a, Memory.read t.mem a = Memory.read m.mem a

/-- 44_io.md, section 1, SENSE: one read, its byte zero-extended into `x[0]`: 0 with no sensor, the sensor's next
reply where the state lists it, and otherwise the free value, whatever it is. That the port always answers is the
spec's own decision D16 (log 7); the form of the sensor is the model's choice (log 4, log 5). -/
def Obligations.SenseReadsSensor : Prop :=
  (∀ n : Nibble, decodeByte (0xC#4 ++ n) = .sense) ∧
  ∀ (p : Params) (m : Mcu p), p.valid = true → m.pc.toNat ≤ 255 →
    ∃ (t : Mcu p) (b : Byte), exec .sense ⟨p, m⟩ = .next ⟨p, t⟩ ∧ t.x0.toNat = b.toNat ∧
      t.events = m.events ++ [.sense b] ∧ t.pc.toNat = m.pc.toNat + 1 ∧
      t = { m with x0 := t.x0, events := t.events, sensor := t.sensor, pc := t.pc } ∧
      (m.sensor = .absent → b = 0x00#8 ∧ t.sensor = .absent) ∧
      (∀ r rest n, m.sensor = .attached (r :: rest) n → b = r ∧ t.sensor = .attached rest (n + 1)) ∧
      (∀ n, m.sensor = .attached [] n → b = Config.sensorByte n ∧ t.sensor = .attached [] (n + 1)) ∧
      ∀ a, Memory.read t.mem a = Memory.read m.mem a

/-- The model's own choice (log 11, from 93_implementation_defined.md V7): an instruction asked to execute at a pc of
256 or more is refused, whichever it is. -/
def Obligations.ExecuteRefusedOutsideMemory : Prop :=
  ∀ (i : Instr) (p : Params) (m : Mcu p), 256 ≤ m.pc.toNat →
    exec i ⟨p, m⟩ = .refused .executeOutsideMemory

/-! ## Rules over all instructions -/

/-- 10_state.md R26: the program counter controller. A faulting instruction keeps the pc; any other takes it from the
one source of its row, with no wrap-around. -/
def Obligations.NextPcHasFourSources : Prop :=
  ∀ (i : Instr) (p : Params) (m t : Mcu p), exec i ⟨p, m⟩ = .next ⟨p, t⟩ → m.runState ≠ .faulted →
    (t.runState = .faulted → t.pc = m.pc) ∧
    (t.runState ≠ .faulted →
      match i with
      | .nop => t.pc.toNat = m.pc.toNat + 1
      | .inc => t.pc.toNat = m.pc.toNat + 1
      | .print => t.pc.toNat = m.pc.toNat + 1
      | .add => t.pc.toNat = m.pc.toNat + 1
      | .loadimm => t.pc.toNat = m.pc.toNat + 2
      | .beqz target => t.pc.toNat = if m.x0.toNat = 0 then target.toNat else m.pc.toNat + 1
      | .load _ => t.pc.toNat = m.pc.toNat + 1
      | .sub => t.pc.toNat = m.pc.toNat + 1
      | .call target => t.pc.toNat = target.toNat
      | .ret => ∃ rest, m.stack = t.pc :: rest
      | .push => t.pc.toNat = m.pc.toNat + 1
      | .pop => t.pc.toNat = m.pc.toNat + 1
      | .sense => t.pc.toNat = m.pc.toNat + 1
      | .nopD => t.pc.toNat = m.pc.toNat + 1
      | .nopE => t.pc.toNat = m.pc.toNat + 1
      | .nopF => t.pc.toNat = m.pc.toNat + 1)

/-- 10_state.md, section 4: exactly four instructions touch the stack, and what each does to it. -/
def Obligations.FourInstructionsTouchTheStack : Prop :=
  ∀ (i : Instr) (p : Params) (m t : Mcu p), exec i ⟨p, m⟩ = .next ⟨p, t⟩ → m.runState ≠ .faulted →
    (t.runState = .faulted → t.stack = m.stack) ∧
    (t.runState ≠ .faulted →
      match i with
      | .call _ => ∃ e, t.stack = e :: m.stack ∧ e.toNat = m.pc.toNat + 2
      | .push => ∃ e, t.stack = e :: m.stack ∧ e.toNat = m.x0.toNat
      | .ret => m.stack = t.pc :: t.stack
      | .pop => ∃ e, m.stack = e :: t.stack ∧ t.x0.toNat = e.toNat % 2 ^ p.xlen
      | .nop => t.stack = m.stack
      | .inc => t.stack = m.stack
      | .print => t.stack = m.stack
      | .add => t.stack = m.stack
      | .loadimm => t.stack = m.stack
      | .beqz _ => t.stack = m.stack
      | .load _ => t.stack = m.stack
      | .sub => t.stack = m.stack
      | .sense => t.stack = m.stack
      | .nopD => t.stack = m.stack
      | .nopE => t.stack = m.stack
      | .nopF => t.stack = m.stack)

/-- 10_state.md, section 1 (the column "written by"): `x[0]` is written only by INC, ADD, SUB, LOAD, POP and SENSE,
`x[1]` only by LOADIMM, and `x[2]`, `x[3]` and the identifier by no instruction. The latch is written before an
instruction executes (10_state.md, section 8) and not by it: `exec` is the EXECUTE phase alone (log 13, log 23). -/
def Obligations.RegisterWriters : Prop :=
  ∀ (i : Instr) (p : Params) (m t : Mcu p), exec i ⟨p, m⟩ = .next ⟨p, t⟩ →
    (t.x0 ≠ m.x0 → i = .inc ∨ i = .add ∨ i = .sub ∨ (∃ a, i = .load a) ∨ i = .pop ∨ i = .sense) ∧
    (t.x1 ≠ m.x1 → i = .loadimm) ∧ t.x2 = m.x2 ∧ t.x3 = m.x3 ∧ t.id = m.id ∧ t.ir = m.ir

/-- 20_memory.md, section 1: no instruction and no step writes memory, whatever the state. -/
def Obligations.NoInstructionWritesMemory : Prop :=
  (∀ (i : Instr) (s t : State), exec i s = .next t →
    t.params = s.params ∧ ∀ a, Memory.read t.mcu.mem a = Memory.read s.mcu.mem a) ∧
  (∀ s t : State, step s = .next t →
    t.params = s.params ∧ ∀ a, Memory.read t.mcu.mem a = Memory.read s.mcu.mem a)

/-- 10_state.md, section 1 (the column "read by"): no instruction reads `x[2]`, `x[3]` or the identifier. Nor the latch,
which is consumed when the instruction is decoded (10_state.md, section 8), before `exec`, the EXECUTE phase alone
(log 13, log 23). Whatever they hold, the instruction does the same and leaves them as they are. -/
def Obligations.UnusedStateIsNeverRead : Prop :=
  ∀ (i : Instr) (p : Params) (m t : Mcu p) (a b : BitVec p.xlen) (c : BitVec p.idWidth) (d : Byte),
    exec i ⟨p, m⟩ = .next ⟨p, t⟩ →
      exec i ⟨p, { m with x2 := a, x3 := b, id := c, ir := d }⟩ =
        .next ⟨p, { t with x2 := a, x3 := b, id := c, ir := d }⟩

/-- 10_state.md, section 8: the history grows only at its end, by one event for each PRINT and each SENSE and by none
for any other instruction; PRINT adds the value of `x[0]` to the print history and nothing to the sensor history, SENSE
the byte it reads from the sensor, the one that goes to `x[0]`, to the sensor history and nothing to the print
history. -/
def Obligations.EventsOnlyFromPrintAndSense : Prop :=
  ∀ (i : Instr) (p : Params) (m t : Mcu p), exec i ⟨p, m⟩ = .next ⟨p, t⟩ →
    (i = .print → t.events = m.events ++ [.print m.x0] ∧
      printHistory t.events = printHistory m.events ++ [m.x0] ∧ senseHistory t.events = senseHistory m.events) ∧
    (i = .sense → t.events = m.events ++ [.sense m.sensor.read.1] ∧
      senseHistory t.events = senseHistory m.events ++ [m.sensor.read.1] ∧
      printHistory t.events = printHistory m.events ∧ t.sensor = m.sensor.read.2 ∧
      (p.valid = true → t.x0.toNat = m.sensor.read.1.toNat)) ∧
    (i ≠ .print → i ≠ .sense → t.events = m.events) ∧
    (i ≠ .sense → t.sensor = m.sensor)

/-- 60_exceptions.md, section 3: the eleven opcode values other than LOADIMM, RET, POP, CALL and PUSH cannot fault,
and no instruction ends a run otherwise. -/
def Obligations.ElevenOpcodesCannotFault : Prop :=
  ∀ (i : Instr) (p : Params) (m t : Mcu p), exec i ⟨p, m⟩ = .next ⟨p, t⟩ →
    (i ≠ .loadimm → i ≠ .ret → i ≠ .pop → i ≠ .push → (∀ n, i ≠ .call n) →
      t.fault = m.fault ∧ t.runState = m.runState) ∧
    (t.runState = m.runState ∨ t.runState = .faulted)

/-! ## Faults -/

/-- 60_exceptions.md R171: AddressOutOfRange is raised by LOADIMM at 255 and by nothing else, and it stops the
run. -/
def Obligations.AddressOutOfRangeExactly : Prop :=
  ∀ (p : Params) (m t : Mcu p), m.runState = .running → m.fault = none → step ⟨p, m⟩ = .next ⟨p, t⟩ →
    ((t.runState = .faulted ∧ ∃ f, t.fault = some f ∧ f.kind = .addressOutOfRange) ↔
      m.pc.toNat = 255 ∧ ∃ b, Memory.read m.mem 255 = some b ∧ opcodeOf b = 0x4#4)

/-- 60_exceptions.md R172: StackUnderflow is raised by RET and POP on an empty stack and by nothing else,
and it stops the run. -/
def Obligations.StackUnderflowExactly : Prop :=
  ∀ (p : Params) (m t : Mcu p), m.runState = .running → m.fault = none → step ⟨p, m⟩ = .next ⟨p, t⟩ →
    ((t.runState = .faulted ∧ ∃ f, t.fault = some f ∧ f.kind = .stackUnderflow) ↔
      m.stack = [] ∧ ∃ b, Memory.read m.mem m.pc.toNat = some b ∧ (opcodeOf b = 0x9#4 ∨ opcodeOf b = 0xB#4))

/-- 60_exceptions.md, section 1, StackOverflow, the spec's own decision D5 (log 22): raised by CALL and PUSH on a
finite stack that is full and by nothing else; never when STACK_DEPTH is unbounded. -/
def Obligations.StackOverflowExactly : Prop :=
  ∀ (p : Params) (m t : Mcu p), m.runState = .running → m.fault = none → step ⟨p, m⟩ = .next ⟨p, t⟩ →
    ((t.runState = .faulted ∧ ∃ f, t.fault = some f ∧ f.kind = .stackOverflow) ↔
      p.stackDepth = some m.stack.length ∧
        ∃ b, Memory.read m.mem m.pc.toNat = some b ∧ (opcodeOf b = 0x8#4 ∨ opcodeOf b = 0xA#4))

/-- 60_exceptions.md, section 2: a step that ends FAULTED wrote the record with the pc and the opcode of the byte
there, the run state and the latch, and nothing else: the pc, the registers, the stack, the memory and the histories
are those before the instruction. That the pc stays is the spec's own decision D11 (log 22). -/
def Obligations.FaultsArePrecise : Prop :=
  ∀ (p : Params) (m t : Mcu p), m.runState = .running → step ⟨p, m⟩ = .next ⟨p, t⟩ → t.runState = .faulted →
    ∃ (k : FaultKind) (b : Byte), m.pc.toNat ≤ 255 ∧ Memory.read m.mem m.pc.toNat = some b ∧
      t = { m with ir := b, fault := some ⟨k, BitVec.ofNat 8 m.pc.toNat, opcodeOf b⟩, runState := .faulted }

/-! ## The step -/

/-- A step runs the decoded instruction: what it adds around `exec` is the latch, and the start of a run where none is
in progress (the model's reading of the host's `step`, log 8). -/
def Obligations.StepRunsDecodedInstruction : Prop :=
  ∀ (p : Params) (m : Mcu p) (b : Byte),
    (m.runState = .running → m.pc.toNat ≤ 255 → Memory.read m.mem m.pc.toNat = some b →
      step ⟨p, m⟩ = exec (decodeByte b) ⟨p, { m with ir := b }⟩) ∧
    (m.runState ≠ .running → Memory.read m.mem 0 = some b →
      step ⟨p, m⟩ =
        exec (decodeByte b) ⟨p, { m with pc := 0#p.sw, fault := none, runState := .running, ir := b }⟩)

/-- 70_reset_and_hazards.md, section 1: the halt test before every fetch, and the fetch into the latch. That a step from
IDLE, HALTED or FAULTED starts a run at 0, so that its first fetch is of the byte at 0, is the spec's own decisions D7 and
D12 (section 2) as the model reads them (log 8). -/
def Obligations.HaltTestThenFetch : Prop :=
  ∀ (p : Params) (m : Mcu p),
    (m.runState = .running → 256 ≤ m.pc.toNat → step ⟨p, m⟩ = .next ⟨p, { m with runState := .halted }⟩) ∧
    (m.runState = .running → m.pc.toNat ≤ 255 →
      ∃ t : Mcu p, step ⟨p, m⟩ = .next ⟨p, t⟩ ∧ Memory.read m.mem m.pc.toNat = some t.ir ∧ t.runState ≠ .halted) ∧
    (m.runState ≠ .running →
      ∃ t : Mcu p, step ⟨p, m⟩ = .next ⟨p, t⟩ ∧ Memory.read m.mem 0 = some t.ir ∧ t.runState ≠ .halted)

/-- 70_reset_and_hazards.md, section 2 (the spec's own decisions D7, D12, D14; log 8, log 22): where no run is in
progress, `step` is the step of the run it starts, which keeps registers, stack and memory. -/
def Obligations.StepStartsARun : Prop :=
  ∀ (p : Params) (m : Mcu p), m.runState ≠ .running →
    step ⟨p, m⟩ = step ⟨p, { m with pc := 0#p.sw, fault := none, runState := .running }⟩

/-- No step ever stops the model: whatever the state, the step answers a next state, which is RUNNING, HALTED or
FAULTED. No cell that does not exist is ever read, and no instruction is met that has no meaning. That the ports never
block is the spec's own decisions D16 and D18 (log 7, unsafe where a sensor or a sink can block); that none leaves IDLE is
its decision D12 as the model reads it: a step starts a run where none is in progress (log 8). -/
def Obligations.StepAlwaysAnswers : Prop :=
  ∀ s : State, ∃ t : State, step s = .next t ∧ t.mcu.runState ≠ .idle

/-- The answer of a run (70_reset_and_hazards.md, section 2): a `run` that ends is HALTED with the pc past the end of
memory and no fault, or FAULTED with a record, and the record's presence says which. -/
def Obligations.RunEndsHaltedOrFaulted : Prop :=
  ∀ s t : State, (s.mcu.runState = .running → s.mcu.fault = none) → RunEndsIn s t →
    (t.mcu.runState = .halted ∧ 256 ≤ t.mcu.pc.toNat ∧ t.mcu.fault = none ∧ t.runAnswer = some .halted) ∨
    (∃ f, t.mcu.runState = .faulted ∧ t.mcu.fault = some f ∧ t.mcu.pc.toNat ≤ 255 ∧
      t.runAnswer = some (.faulted f))

/-- A run ends in one state only, however much fuel it is given (log 16). -/
def Obligations.RunEndsInOneState : Prop :=
  ∀ s t u : State, RunEndsIn s t → RunEndsIn s u → t = u

/-- 70_reset_and_hazards.md, section 2, the spec's own decision D12: a sequence of `step` calls that ends in HALTED or
FAULTED leaves exactly the state one `run` would have left, and the other way round. -/
def Obligations.StepsLeaveWhatRunLeaves : Prop :=
  ∀ s t : State, StepsEndIn s t ↔ RunEndsIn s t

/-! ## Sequences of instructions -/

/-- 40_arithmetic.md, section 2: `n` INC add `n` modulo 2^XLEN and advance the pc by `n`. -/
def Obligations.RepeatedIncCounts : Prop :=
  ∀ (n : Nat) (p : Params) (m : Mcu p), m.pc.toNat + n ≤ 256 →
    ∃ t : Mcu p, execSeq (List.replicate n .inc) ⟨p, m⟩ = .next ⟨p, t⟩ ∧
      t.x0.toNat = (m.x0.toNat + n) % 2 ^ p.xlen ∧ t.pc.toNat = m.pc.toNat + n ∧
      t = { m with x0 := t.x0, pc := t.pc }

/-- 40_arithmetic.md, section 2: ADD and then SUB restore `x[0]`, and so do SUB and then ADD; LOADIMM and then ADD add
the literal modulo 2^XLEN. -/
def Obligations.ArithmeticIdentities : Prop :=
  ∀ (p : Params) (m : Mcu p), m.pc.toNat + 2 ≤ 256 →
    (∃ t : Mcu p, execSeq [.add, .sub] ⟨p, m⟩ = .next ⟨p, t⟩ ∧ t.pc.toNat = m.pc.toNat + 2 ∧
      t = { m with pc := t.pc }) ∧
    (∃ t : Mcu p, execSeq [.sub, .add] ⟨p, m⟩ = .next ⟨p, t⟩ ∧ t.pc.toNat = m.pc.toNat + 2 ∧
      t = { m with pc := t.pc }) ∧
    (p.valid = true → m.pc.toNat + 3 ≤ 256 →
      ∃ (t : Mcu p) (b : Byte), execSeq [.loadimm, .add] ⟨p, m⟩ = .next ⟨p, t⟩ ∧
        Memory.read m.mem (m.pc.toNat + 1) = some b ∧ t.x1.toNat = b.toNat ∧
        t.x0.toNat = (m.x0.toNat + b.toNat) % 2 ^ p.xlen ∧ t.pc.toNat = m.pc.toNat + 3 ∧
        t = { m with x0 := t.x0, x1 := t.x1, pc := t.pc })

/-- 43_stack.md, section 2: a PUSH and the matching POP, whatever happens to `x[0]` and the rest of the core between
them, restore `x[0]` and the stack, for every XLEN. -/
def Obligations.PushThenPopRestores : Prop :=
  ∀ (p : Params) (m t m' : Mcu p), exec .push ⟨p, m⟩ = .next ⟨p, t⟩ → m.runState ≠ .faulted →
    t.runState ≠ .faulted → m'.stack = t.stack → m'.pc.toNat ≤ 255 →
    ∃ t' : Mcu p, exec .pop ⟨p, m'⟩ = .next ⟨p, t'⟩ ∧ t'.x0 = m.x0 ∧ t'.stack = m.stack ∧
      t'.pc.toNat = m'.pc.toNat + 1 ∧ t'.fault = m'.fault ∧ t'.runState = m'.runState

/-- 42_control_transfer.md, section 2: a subroutine that leaves the stack as it found it returns to the byte two past
the CALL, with the caller's stack; and PUSH and then RET jump to the value `x[0]` had. -/
def Obligations.CallThenRetReturns : Prop :=
  (∀ (target : Nibble) (p : Params) (m t m' : Mcu p), exec (.call target) ⟨p, m⟩ = .next ⟨p, t⟩ →
    m.runState ≠ .faulted → t.runState ≠ .faulted → m'.stack = t.stack → m'.pc.toNat ≤ 255 →
    ∃ t' : Mcu p, exec .ret ⟨p, m'⟩ = .next ⟨p, t'⟩ ∧ t'.pc.toNat = m.pc.toNat + 2 ∧ t'.stack = m.stack ∧
      t' = { m' with stack := t'.stack, pc := t'.pc }) ∧
  (∀ (p : Params) (m : Mcu p), m.pc.toNat + 2 ≤ 256 → p.stackDepth ≠ some m.stack.length →
    ∃ t : Mcu p, execSeq [.push, .ret] ⟨p, m⟩ = .next ⟨p, t⟩ ∧ t.pc.toNat = m.x0.toNat ∧
      t = { m with pc := t.pc })

/-! ## Reset, load, inspection -/

/-- 10_state.md, section 9, and 70_reset_and_hazards.md, section 2: from any state the host's reset gives the fresh
unit; the strapped identifier, the attached sensor and the parameters are kept. The values of pc, run_state, fault and
ir, and that memory is cleared, are the spec's own decisions D7, D10 and D23 (log 22). -/
def Obligations.ResetGivesFreshUnit : Prop :=
  ∀ (p : Params) (m : Mcu p), ∃ t : Mcu p, hostReset ⟨p, m⟩ = ⟨p, t⟩ ∧
    (∀ a, a < 256 → Memory.read t.mem a = some 0x00#8) ∧
    t.x0.toNat = 0 ∧ t.x1.toNat = 0 ∧ t.x2.toNat = 0 ∧ t.x3.toNat = 0 ∧ t.stack = [] ∧ t.pc.toNat = 0 ∧
    t.runState = .idle ∧ t.fault = none ∧ t.ir = 0x00#8 ∧ t.events = [] ∧ t.id = m.id ∧ t.sensor = m.sensor

/-- The state the model starts from is a fresh unit. That XLEN is 8, the stack unbounded, the identifier 1 and the
sensor absent is the model's choice (log 2, log 3, log 4), and so is no part of this statement. -/
def Obligations.ResetStateIsFresh : Prop :=
  hostReset State.reset = State.reset ∧ State.reset.params.valid = true ∧ State.reset.mcu.id.toNat ≠ 0 ∧
  (∀ a, a < 256 → Memory.read State.reset.mcu.mem a = some 0x00#8) ∧
  State.reset.mcu.x0.toNat = 0 ∧ State.reset.mcu.x1.toNat = 0 ∧ State.reset.mcu.x2.toNat = 0 ∧
  State.reset.mcu.x3.toNat = 0 ∧ State.reset.mcu.stack = [] ∧ State.reset.mcu.pc.toNat = 0 ∧
  State.reset.mcu.runState = .idle ∧ State.reset.mcu.fault = none ∧ State.reset.mcu.ir = 0x00#8 ∧
  State.reset.mcu.events = []

/-- 70_reset_and_hazards.md, section 2 (the spec's own decision D13): a program of at most 256 bytes is copied from
address 0 on, the cells after it keep their values, and nothing but memory changes. -/
def Obligations.LoadCopiesTheProgram : Prop :=
  ∀ (program : List Byte) (p : Params) (m : Mcu p), Memory.wf m.mem = true → m.runState ≠ .running →
    program.length ≤ 256 →
    ∃ t : Mcu p, hostLoad program ⟨p, m⟩ = (.ok, ⟨p, t⟩) ∧ t = { m with mem := t.mem } ∧
      Memory.wf t.mem = true ∧
      ∀ a, a < 256 → Memory.read t.mem a = if h : a < program.length then some program[a] else Memory.read m.mem a

/-- 70_reset_and_hazards.md, section 2 (the spec's own decision D13): a longer program is answered ProgramTooLarge, and
any program is not accepted during a run; nothing changes. Which answer is given during a run is the model's choice
(log 17). -/
def Obligations.LoadRefusedChangesNothing : Prop :=
  ∀ (program : List Byte) (s : State),
    (s.mcu.runState ≠ .running → 256 < program.length → hostLoad program s = (.programTooLarge, s)) ∧
    (s.mcu.runState = .running → hostLoad program s = (.notAccepted, s))

/-- Inspection shows the state (70_reset_and_hazards.md, section 2): every cell, the registers, the whole stack from
bottom to top with its depth, the pc, the identifier, and the status fields with their numbers, which are the spec's own
decision D10: `run_state` IDLE 0, RUNNING 1, HALTED 2, FAULTED 3; `fault.kind` NONE 0, AddressOutOfRange 1,
StackUnderflow 2, StackOverflow 3, not 0 exactly when the run state is FAULTED; the record's pc and opcode. -/
def Obligations.InspectionShowsState : Prop :=
  ∀ s : State, s.Inv →
    (∀ a, a < 256 → (inspect s).cells[a]? = Memory.read s.mcu.mem a) ∧ (inspect s).cells.length = 256 ∧
    (inspect s).registers = [s.mcu.x0.toNat, s.mcu.x1.toNat, 0, 0] ∧
    (inspect s).stack = (s.mcu.stack.map BitVec.toNat).reverse ∧
    (inspect s).depth = s.mcu.stack.length ∧ (inspect s).stack.length = (inspect s).depth ∧
    (inspect s).pc = s.mcu.pc.toNat ∧ (inspect s).id = s.mcu.id.toNat ∧
    ((inspect s).runState = 0 ↔ s.mcu.runState = .idle) ∧ ((inspect s).runState = 1 ↔ s.mcu.runState = .running) ∧
    ((inspect s).runState = 2 ↔ s.mcu.runState = .halted) ∧ ((inspect s).runState = 3 ↔ s.mcu.runState = .faulted) ∧
    ((inspect s).faultKind = 0 ↔ s.mcu.fault = none) ∧
    (∀ f, s.mcu.fault = some f →
      ((inspect s).faultKind = 1 ↔ f.kind = .addressOutOfRange) ∧
      ((inspect s).faultKind = 2 ↔ f.kind = .stackUnderflow) ∧
      ((inspect s).faultKind = 3 ↔ f.kind = .stackOverflow)) ∧
    ((inspect s).faultKind ≠ 0 ↔ (inspect s).runState = 3) ∧
    (∀ f, s.mcu.fault = some f → (inspect s).faultPc = f.fpc ∧ (inspect s).faultPc.toNat = s.mcu.pc.toNat ∧
      (inspect s).faultOpcode = f.fopcode)

/-! ## Invariants -/

/-- Two memories in canonical form whose cells read the same are the same (the form is the model's, log 18). -/
def Obligations.CanonicalMemoriesAreEqual : Prop :=
  ∀ m m' : Memory, Memory.wf m = true → Memory.wf m' = true →
    (∀ a, Memory.read m a = Memory.read m' a) → m = m'

/-- The invariant holds of the state after reset. -/
def Obligations.ResetMeetsInvariant : Prop := State.reset.Inv

/-- Every step keeps the invariant: memory in canonical form, stack within its depth, fault record present exactly
when FAULTED and true of the instruction at the pc, HALTED only past the end of memory, IDLE only at 0, `x[2]` and
`x[3]` zero, with 8-bit registers no stack entry and no pc above 257, identifier not zero. -/
def Obligations.StepKeepsInvariant : Prop :=
  ∀ s t : State, s.Inv → step s = .next t → t.Inv

/-- Every state the host and the core can bring a unit to, whatever is reset, loaded, stepped and run, meets the
invariant; so `x[2]` and `x[3]` hold 0 in every reachable state (10_state.md, section 2), and the core has the control
only while it is RUNNING. -/
def Obligations.ReachableStatesMeetInvariant : Prop :=
  ∀ c : Session, Reachable c → c.Inv

/-! ## The platform (outside the CORE block) -/

/-- 60_exceptions.md, section 8: `send` delivers to a registered unit that is not RUNNING, reports an unregistered
destination, and in no case changes a unit or the directory. The answers during a `run` and for a destination RUNNING
between two `step`s are the model's choice (log 21), and that another unit RUNNING between two `step`s hinders nothing its
reading (log 26). -/
def Obligations.SendDeliversOrReports : Prop :=
  ∀ (M : Type) (n : Platform M) (source dest : Nat) (message : M),
    (n.hostHasControl = true → n.network.find dest = none →
      n.send source dest message = (.destinationNotFound, n)) ∧
    (∀ c, n.hostHasControl = true → n.unitOf dest = some c → c.state.mcu.runState ≠ .running →
      n.send source dest message =
        (.delivered, { n with receipts := n.receipts ++ [⟨c.state.mcu.id.toNat, source, message⟩] })) ∧
    (∀ c, n.hostHasControl = true → n.unitOf dest = some c → c.state.mcu.runState = .running →
      n.send source dest message = (.notAccepted, n)) ∧
    (n.hostHasControl = false → n.send source dest message = (.notAccepted, n))

/-- 60_exceptions.md, section 8: registering puts a reference to the unit under its id, an earlier entry of that id is
replaced, other entries stay, keys stay unique, and no unit changes. That it is not accepted during a `run`, nor for a
unit the platform has not, is the model's choice (log 21), and that a unit RUNNING between two `step`s hinders nothing its
reading (log 26). -/
def Obligations.RegisterLastWriteWins : Prop :=
  ∀ (M : Type) (n : Platform M) (ref : Nat), (n.network.directory.map Prod.fst).Nodup →
    (∀ c, n.hostHasControl = true → n.units[ref]? = some c →
      ∃ n', n.register ref = some n' ∧ n'.network.find c.state.mcu.id.toNat = some ref ∧
        n'.unitOf c.state.mcu.id.toNat = some c ∧
        (∀ k, k ≠ c.state.mcu.id.toNat → n'.network.find k = n.network.find k) ∧
        (n'.network.directory.map Prod.fst).Nodup ∧ n'.units = n.units ∧ n'.receipts = n.receipts) ∧
    (n.hostHasControl = true → n.units[ref]? = none → n.register ref = none) ∧
    (n.hostHasControl = false → n.register ref = none)

/-- 60_exceptions.md, section 8: with unique keys and no registered unit RUNNING, a broadcast in any order of the
recipients gives each of them exactly one delivery, in that order, none to the source, and changes no unit. That the
order is an argument, that anything but a permutation of the recipients answers `none`, and that a broadcast during a
`run` does, is the model's choice (log 21); the spec leaves the order open (93_implementation_defined.md U2).
That an unregistered unit RUNNING between two `step`s hinders nothing is its reading (log 26). -/
def Obligations.BroadcastDeliversOnceToEach : Prop :=
  ∀ (M : Type) (n : Platform M) (source : Nat) (message : M) (order : List Nat),
    (n.network.directory.map Prod.fst).Nodup →
    (∀ e ∈ n.network.directory,
      ∃ c, n.units[e.2]? = some c ∧ c.state.mcu.id.toNat = e.1 ∧ c.state.mcu.runState ≠ .running) →
    (n.hostHasControl = true → order.Perm (n.network.recipients source) →
      n.broadcast source message order =
        some { n with receipts := n.receipts ++ order.map (fun d => ⟨d, source, message⟩) }) ∧
    (n.hostHasControl = true → ¬ order.Perm (n.network.recipients source) →
      n.broadcast source message order = none) ∧
    (n.hostHasControl = false → n.broadcast source message order = none) ∧
    (order.Perm (n.network.recipients source) →
      order.Nodup ∧ source ∉ order ∧ ∀ k, k ∈ order ↔ k ≠ source ∧ (n.network.find k).isSome = true)

/-! ## The host and the core -/

/-- The invariant is kept by every move of the host, loads of any program among them, and by every move of the core; and
a fresh unit with legal parameters and a legal identifier meets it. -/
def Obligations.HostAndCoreMovesKeepInvariant : Prop :=
  (∀ (p : Params) (id : BitVec p.idWidth) (sensor : Sensor), p.valid = true → id.toNat ≠ 0 →
    (Session.atHost ⟨p, Mcu.fresh p id sensor⟩).Inv) ∧
  (∀ (op : HostOp) (c d : Session), c.Inv → hostMove op c = some (.next d) → d.Inv) ∧
  (∀ c d : Session, c.Inv → coreMove c = some (.next d) → d.Inv)

/-- 70_reset_and_hazards.md, section 2: while a `run` is in progress the host can do nothing to the core: it has no move,
cannot inspect and cannot deliver; the core goes on by one instruction at a time, and the host has the control again
exactly when the run has ended. Otherwise the core does nothing by itself, the host can inspect, each of its transactions
goes on, and `run` alone hands the control to the core. That `reset` is no exception, though the rule of `reset` says "in
every state", is the model's reading (log 25). A `load` on a unit RUNNING between two `step`s is not accepted by the spec;
that it is a transaction all the same, which goes on and changes nothing, is the model's choice (log 17, unsafe). -/
def Obligations.HostHasNoMoveDuringRun : Prop :=
  ∀ c : Session,
    (c.control = .core →
      (∀ op, hostMove op c = none) ∧ c.inspect = none ∧
      (∀ (M : Type) (source : Nat) (message : M), c.receive source message = none) ∧
      (c.state.mcu.runState = .running →
        ∃ d, coreMove c = some (.next d) ∧ stepInstruction c.state = .next d.state ∧
          (d.control = .host ↔ d.state.ended = true))) ∧
    (c.control = .host →
      coreMove c = none ∧ c.inspect = some (inspect c.state) ∧
      ∀ op, ∃ d, hostMove op c = some (.next d) ∧ (d.control = .core ↔ op = .run))

/-- 70_reset_and_hazards.md, section 2: `run` returns to the host exactly when the run has ended, and leaves the state in
which it ended; a run that does not end never returns. -/
def Obligations.RunReturnsAtItsEnd : Prop :=
  ∀ s t : State,
    RunEndsIn s t ↔
      ∃ c k, hostMove .run (.atHost s) = some (.next c) ∧ coreMoves k c = .next (.atHost t)

/-- 60_exceptions.md, section 8: units share no state, and the directory holds references to them. A move of one unit
goes on as the unit's own move does, changes no other unit, not the directory and no receipt, and a look-up afterwards
finds the unit as the move left it. The rest is the model's: that a reference is a place in the list of units, and that
while any unit is in a `run` the host moves, inspects and registers none, is its choice (log 21), with `reset` among those
moves its reading (log 25), and that a unit RUNNING between two `step`s holds up no other its reading too (log 26); that a
`load` on such a unit goes on and changes nothing is its choice (log 17). -/
def Obligations.UnitsActThroughReferences : Prop :=
  ∀ (M : Type) (n : Platform M) (ref : Nat),
    (∀ op c, n.hostHasControl = true → n.units[ref]? = some c →
      ∃ d n', hostMove op c = some (.next d) ∧ n.hostMove ref op = some (.next n') ∧ n.UnitMoved n' ref c d) ∧
    (∀ c, n.units[ref]? = some c → c.control = .core →
      ∃ d n', coreMove c = some (.next d) ∧ n.coreMove ref = some (.next n') ∧ n.UnitMoved n' ref c d) ∧
    (n.hostHasControl = false →
      (∀ op, n.hostMove ref op = none) ∧ n.inspect ref = none ∧ n.register ref = none)

/-- 60_exceptions.md, section 8: a platform of units at their hosts' control with an empty network meets the platform's
invariant (every unit's own invariant, unique keys, entries that refer to units of that identifier, at most one unit in a
`run`), and moves of the host, moves of a core, registrations, sends and broadcasts keep it. That "at most one unit is
running" means at most one in a `run` is the model's reading (log 26), and what is accepted during a `run` its choice
(log 21). -/
def Obligations.PlatformKeepsInvariant : Prop :=
  ∀ M : Type,
    (∀ units : List Session, (∀ c ∈ units, c.Inv ∧ c.control = .host) → (Platform.create M units).Inv) ∧
    ∀ n n' : Platform M, n.Inv →
      (∃ ref op, n.hostMove ref op = some (.next n')) ∨ (∃ ref, n.coreMove ref = some (.next n')) ∨
        (∃ ref, n.register ref = some n') ∨
        (∃ source dest message, (n.send source dest message).2 = n') ∨
        (∃ source message order, n.broadcast source message order = some n') →
      n'.Inv
end

