-- ==== Sys2Proof/Laws/Memory.lean ====
section
/-! SUPPORT. Memory: a read gives what was written last, a write leaves the other cells alone, every operation keeps
the canonical form, and two memories in that form with equal cells are equal. -/

namespace Sys2Proof.Machine

/-! ### The list operations -/

theorem lookup_put_same (m : Memory) (a : Nat) (v : Byte) (lo : Nat) (h : Memory.wfFrom lo m = true) :
    Memory.lookup (Memory.put m a v) a = v := by
  induction m generalizing lo with
  | nil => by_cases hv : v = resetByte <;> simp [Memory.put, Memory.lookup, hv]
  | cons c rest ih =>
    obtain ⟨k, u⟩ := c
    simp only [Memory.wfFrom, Bool.and_eq_true, decide_eq_true_eq] at h
    have absent : ∀ (r : Memory) (lo' : Nat), Memory.wfFrom lo' r = true → a < lo' →
        Memory.lookup r a = resetByte := by
      intro r
      induction r with
      | nil => intros; rfl
      | cons d tail ihr =>
        intro lo' hw hlt
        obtain ⟨k', u'⟩ := d
        simp only [Memory.wfFrom, Bool.and_eq_true, decide_eq_true_eq] at hw
        have : ¬ k' = a := by omega
        simp only [Memory.lookup, this, if_false]
        exact ihr (k' + 1) hw.2 (by omega)
    by_cases hlt : a < k
    · by_cases hv : v = resetByte
      · have hk : ¬ k = a := by omega
        simp only [Memory.put, hlt, hv, if_true, Memory.lookup, hk, if_false]
        exact absent rest (k + 1) h.2 (by omega)
      · simp [Memory.put, hlt, hv, Memory.lookup]
    · by_cases heq : a = k
      · subst heq
        by_cases hv : v = resetByte
        · simp only [Memory.put, hv, lt_self_iff_false, if_false, if_true]
          exact absent rest (a + 1) h.2 (by omega)
        · simp [Memory.put, hv, Memory.lookup]
      · have hk : ¬ k = a := fun e => heq e.symm
        simp only [Memory.put, hlt, heq, if_false, Memory.lookup, hk]
        exact ih (k + 1) h.2

theorem lookup_put_other (m : Memory) (a b : Nat) (v : Byte) (hab : b ≠ a) :
    Memory.lookup (Memory.put m a v) b = Memory.lookup m b := by
  induction m with
  | nil => by_cases hv : v = resetByte <;> simp [Memory.put, Memory.lookup, hv, hab.symm]
  | cons c rest ih =>
    obtain ⟨k, u⟩ := c
    unfold Memory.put
    split_ifs with h1 h2 h3 h4
    · rfl
    · simp [Memory.lookup, hab.symm]
    · subst h3; simp [Memory.lookup, hab.symm]
    · subst h3; simp [Memory.lookup, hab.symm]
    · simp only [Memory.lookup, ih]

theorem put_wfFrom (m : Memory) (a : Nat) (v : Byte) (lo : Nat) (h : Memory.wfFrom lo m = true) (hlo : lo ≤ a)
    (ha : a < memSize) : Memory.wfFrom lo (Memory.put m a v) = true := by
  induction m generalizing lo with
  | nil => by_cases hv : v = resetByte <;> simp [Memory.put, Memory.wfFrom, hv, hlo, ha]
  | cons c rest ih =>
    obtain ⟨k, u⟩ := c
    have h' := h
    simp only [Memory.wfFrom, Bool.and_eq_true, decide_eq_true_eq] at h'
    obtain ⟨⟨⟨hk, hkm⟩, hu⟩, hrest⟩ := h'
    unfold Memory.put
    split_ifs with h1 h2 h3 h4
    · exact h
    · simp only [Memory.wfFrom, Bool.and_eq_true, decide_eq_true_eq]
      exact ⟨⟨⟨hlo, ha⟩, h2⟩, ⟨⟨by omega, hkm⟩, hu⟩, hrest⟩
    · have weaken : ∀ (r : Memory) (x y : Nat), y ≤ x → Memory.wfFrom x r = true → Memory.wfFrom y r = true := by
        intro r x y hxy hr
        cases r with
        | nil => rfl
        | cons d tail =>
          obtain ⟨k', u'⟩ := d
          simp only [Memory.wfFrom, Bool.and_eq_true, decide_eq_true_eq] at hr ⊢
          exact ⟨⟨⟨by omega, hr.1.1.2⟩, hr.1.2⟩, hr.2⟩
      exact weaken rest (k + 1) lo (by omega) hrest
    · simp only [Memory.wfFrom, Bool.and_eq_true, decide_eq_true_eq]
      subst h3
      exact ⟨⟨⟨hlo, ha⟩, h4⟩, hrest⟩
    · simp only [Memory.wfFrom, Bool.and_eq_true, decide_eq_true_eq]
      exact ⟨⟨⟨hk, hkm⟩, hu⟩, ih (k + 1) hrest (by omega)⟩

/-! ### The operations on memory -/

/-- A read of a cell that exists answers; of any other it does not. -/
theorem read_isSome (m : Memory) (a : Nat) : (Memory.read m a).isSome = decide (a < memSize) := by
  unfold Memory.read; split <;> simp_all

theorem read_of_lt (m : Memory) (a : Nat) (h : a < memSize) : Memory.read m a = some (Memory.lookup m a) := by
  simp [Memory.read, h]

theorem read_of_ge (m : Memory) (a : Nat) (h : memSize ≤ a) : Memory.read m a = none := by
  simp [Memory.read, Nat.not_lt.mpr h]

/-- The reset memory reads 0x00 in every cell. -/
theorem read_nil (a : Nat) (h : a < memSize) : Memory.read [] a = some 0x00#8 := by
  simp [Memory.read, h, Memory.lookup, resetByte]

theorem read_write_same (m : Memory) (a : Nat) (v : Byte) (h : Memory.wf m = true) (ha : a < memSize) :
    Memory.read (Memory.write m a v) a = some v := by
  simp only [Memory.read, Memory.write, ha, if_true]
  rw [lookup_put_same m a v 0 h]

theorem read_write_other (m : Memory) (a b : Nat) (v : Byte) (hab : b ≠ a) :
    Memory.read (Memory.write m a v) b = Memory.read m b := by
  unfold Memory.read Memory.write
  split_ifs <;> simp [lookup_put_other m a b v hab]

/-- A write keeps the canonical form. -/
theorem write_wf (m : Memory) (a : Nat) (v : Byte) (h : Memory.wf m = true) : Memory.wf (Memory.write m a v) = true := by
  unfold Memory.write
  split_ifs with ha
  · exact put_wfFrom m a v 0 h (Nat.zero_le a) ha
  · exact h

/-- Writing a sequence of bytes keeps the canonical form. -/
theorem writeAll_wf (bytes : List Byte) (m : Memory) (a : Nat) (h : Memory.wf m = true) :
    Memory.wf (Memory.writeAll m a bytes) = true := by
  induction bytes generalizing m a with
  | nil => exact h
  | cons v rest ih => exact ih _ _ (write_wf m a v h)

/-- The memory after reset has the canonical form. -/
theorem reset_mem_wf : Memory.wf State.reset.mcu.mem = true := rfl

/-- Writing at and above `a` leaves the cells below `a` alone. -/
theorem read_writeAll_below (bytes : List Byte) (m : Memory) (a b : Nat) (h : b < a) :
    Memory.read (Memory.writeAll m a bytes) b = Memory.read m b := by
  induction bytes generalizing m a with
  | nil => rfl
  | cons v rest ih =>
    rw [Memory.writeAll, ih _ _ (by omega), read_write_other m a b v (by omega)]

end Sys2Proof.Machine
end

