-- ==== Sys2Proof/Laws/State.lean ====
section
/-! SUPPORT. One lemma per field of the core's state per update, so that no proof unfolds a record update. -/

namespace Sys2Proof.Machine

variable {p : Params} (m : Mcu p)

/-! ### setX0 -/

@[simp] theorem setX0_mem (v : BitVec p.xlen) : (m.setX0 v).mem = m.mem := rfl
@[simp] theorem setX0_x0 (v : BitVec p.xlen) : (m.setX0 v).x0 = v := rfl
@[simp] theorem setX0_x1 (v : BitVec p.xlen) : (m.setX0 v).x1 = m.x1 := rfl
@[simp] theorem setX0_x2 (v : BitVec p.xlen) : (m.setX0 v).x2 = m.x2 := rfl
@[simp] theorem setX0_x3 (v : BitVec p.xlen) : (m.setX0 v).x3 = m.x3 := rfl
@[simp] theorem setX0_stack (v : BitVec p.xlen) : (m.setX0 v).stack = m.stack := rfl
@[simp] theorem setX0_pc (v : BitVec p.xlen) : (m.setX0 v).pc = m.pc := rfl
@[simp] theorem setX0_runState (v : BitVec p.xlen) : (m.setX0 v).runState = m.runState := rfl
@[simp] theorem setX0_fault (v : BitVec p.xlen) : (m.setX0 v).fault = m.fault := rfl
@[simp] theorem setX0_id (v : BitVec p.xlen) : (m.setX0 v).id = m.id := rfl
@[simp] theorem setX0_ir (v : BitVec p.xlen) : (m.setX0 v).ir = m.ir := rfl
@[simp] theorem setX0_events (v : BitVec p.xlen) : (m.setX0 v).events = m.events := rfl
@[simp] theorem setX0_sensor (v : BitVec p.xlen) : (m.setX0 v).sensor = m.sensor := rfl

/-! ### setX1 -/

@[simp] theorem setX1_mem (v : BitVec p.xlen) : (m.setX1 v).mem = m.mem := rfl
@[simp] theorem setX1_x0 (v : BitVec p.xlen) : (m.setX1 v).x0 = m.x0 := rfl
@[simp] theorem setX1_x1 (v : BitVec p.xlen) : (m.setX1 v).x1 = v := rfl
@[simp] theorem setX1_x2 (v : BitVec p.xlen) : (m.setX1 v).x2 = m.x2 := rfl
@[simp] theorem setX1_x3 (v : BitVec p.xlen) : (m.setX1 v).x3 = m.x3 := rfl
@[simp] theorem setX1_stack (v : BitVec p.xlen) : (m.setX1 v).stack = m.stack := rfl
@[simp] theorem setX1_pc (v : BitVec p.xlen) : (m.setX1 v).pc = m.pc := rfl
@[simp] theorem setX1_runState (v : BitVec p.xlen) : (m.setX1 v).runState = m.runState := rfl
@[simp] theorem setX1_fault (v : BitVec p.xlen) : (m.setX1 v).fault = m.fault := rfl
@[simp] theorem setX1_id (v : BitVec p.xlen) : (m.setX1 v).id = m.id := rfl
@[simp] theorem setX1_ir (v : BitVec p.xlen) : (m.setX1 v).ir = m.ir := rfl
@[simp] theorem setX1_events (v : BitVec p.xlen) : (m.setX1 v).events = m.events := rfl
@[simp] theorem setX1_sensor (v : BitVec p.xlen) : (m.setX1 v).sensor = m.sensor := rfl

/-! ### goto -/

@[simp] theorem goto_mem (t : BitVec p.sw) : (m.goto t).mem = m.mem := rfl
@[simp] theorem goto_x0 (t : BitVec p.sw) : (m.goto t).x0 = m.x0 := rfl
@[simp] theorem goto_x1 (t : BitVec p.sw) : (m.goto t).x1 = m.x1 := rfl
@[simp] theorem goto_x2 (t : BitVec p.sw) : (m.goto t).x2 = m.x2 := rfl
@[simp] theorem goto_x3 (t : BitVec p.sw) : (m.goto t).x3 = m.x3 := rfl
@[simp] theorem goto_stack (t : BitVec p.sw) : (m.goto t).stack = m.stack := rfl
@[simp] theorem goto_pc (t : BitVec p.sw) : (m.goto t).pc = t := rfl
@[simp] theorem goto_runState (t : BitVec p.sw) : (m.goto t).runState = m.runState := rfl
@[simp] theorem goto_fault (t : BitVec p.sw) : (m.goto t).fault = m.fault := rfl
@[simp] theorem goto_id (t : BitVec p.sw) : (m.goto t).id = m.id := rfl
@[simp] theorem goto_ir (t : BitVec p.sw) : (m.goto t).ir = m.ir := rfl
@[simp] theorem goto_events (t : BitVec p.sw) : (m.goto t).events = m.events := rfl
@[simp] theorem goto_sensor (t : BitVec p.sw) : (m.goto t).sensor = m.sensor := rfl

/-! ### setStack -/

@[simp] theorem setStack_mem (st : List (BitVec p.sw)) : (m.setStack st).mem = m.mem := rfl
@[simp] theorem setStack_x0 (st : List (BitVec p.sw)) : (m.setStack st).x0 = m.x0 := rfl
@[simp] theorem setStack_x1 (st : List (BitVec p.sw)) : (m.setStack st).x1 = m.x1 := rfl
@[simp] theorem setStack_x2 (st : List (BitVec p.sw)) : (m.setStack st).x2 = m.x2 := rfl
@[simp] theorem setStack_x3 (st : List (BitVec p.sw)) : (m.setStack st).x3 = m.x3 := rfl
@[simp] theorem setStack_stack (st : List (BitVec p.sw)) : (m.setStack st).stack = st := rfl
@[simp] theorem setStack_pc (st : List (BitVec p.sw)) : (m.setStack st).pc = m.pc := rfl
@[simp] theorem setStack_runState (st : List (BitVec p.sw)) : (m.setStack st).runState = m.runState := rfl
@[simp] theorem setStack_fault (st : List (BitVec p.sw)) : (m.setStack st).fault = m.fault := rfl
@[simp] theorem setStack_id (st : List (BitVec p.sw)) : (m.setStack st).id = m.id := rfl
@[simp] theorem setStack_ir (st : List (BitVec p.sw)) : (m.setStack st).ir = m.ir := rfl
@[simp] theorem setStack_events (st : List (BitVec p.sw)) : (m.setStack st).events = m.events := rfl
@[simp] theorem setStack_sensor (st : List (BitVec p.sw)) : (m.setStack st).sensor = m.sensor := rfl

/-! ### emit -/

@[simp] theorem emit_mem (e : Event p) : (m.emit e).mem = m.mem := rfl
@[simp] theorem emit_x0 (e : Event p) : (m.emit e).x0 = m.x0 := rfl
@[simp] theorem emit_x1 (e : Event p) : (m.emit e).x1 = m.x1 := rfl
@[simp] theorem emit_x2 (e : Event p) : (m.emit e).x2 = m.x2 := rfl
@[simp] theorem emit_x3 (e : Event p) : (m.emit e).x3 = m.x3 := rfl
@[simp] theorem emit_stack (e : Event p) : (m.emit e).stack = m.stack := rfl
@[simp] theorem emit_pc (e : Event p) : (m.emit e).pc = m.pc := rfl
@[simp] theorem emit_runState (e : Event p) : (m.emit e).runState = m.runState := rfl
@[simp] theorem emit_fault (e : Event p) : (m.emit e).fault = m.fault := rfl
@[simp] theorem emit_id (e : Event p) : (m.emit e).id = m.id := rfl
@[simp] theorem emit_ir (e : Event p) : (m.emit e).ir = m.ir := rfl
@[simp] theorem emit_events (e : Event p) : (m.emit e).events = m.events ++ [e] := rfl
@[simp] theorem emit_sensor (e : Event p) : (m.emit e).sensor = m.sensor := rfl

/-! ### setSensor -/

@[simp] theorem setSensor_mem (d : Sensor) : (m.setSensor d).mem = m.mem := rfl
@[simp] theorem setSensor_x0 (d : Sensor) : (m.setSensor d).x0 = m.x0 := rfl
@[simp] theorem setSensor_x1 (d : Sensor) : (m.setSensor d).x1 = m.x1 := rfl
@[simp] theorem setSensor_x2 (d : Sensor) : (m.setSensor d).x2 = m.x2 := rfl
@[simp] theorem setSensor_x3 (d : Sensor) : (m.setSensor d).x3 = m.x3 := rfl
@[simp] theorem setSensor_stack (d : Sensor) : (m.setSensor d).stack = m.stack := rfl
@[simp] theorem setSensor_pc (d : Sensor) : (m.setSensor d).pc = m.pc := rfl
@[simp] theorem setSensor_runState (d : Sensor) : (m.setSensor d).runState = m.runState := rfl
@[simp] theorem setSensor_fault (d : Sensor) : (m.setSensor d).fault = m.fault := rfl
@[simp] theorem setSensor_id (d : Sensor) : (m.setSensor d).id = m.id := rfl
@[simp] theorem setSensor_ir (d : Sensor) : (m.setSensor d).ir = m.ir := rfl
@[simp] theorem setSensor_events (d : Sensor) : (m.setSensor d).events = m.events := rfl
@[simp] theorem setSensor_sensor (d : Sensor) : (m.setSensor d).sensor = d := rfl

/-! ### setMem -/

@[simp] theorem setMem_mem (mm : Memory) : (m.setMem mm).mem = mm := rfl
@[simp] theorem setMem_x0 (mm : Memory) : (m.setMem mm).x0 = m.x0 := rfl
@[simp] theorem setMem_x1 (mm : Memory) : (m.setMem mm).x1 = m.x1 := rfl
@[simp] theorem setMem_x2 (mm : Memory) : (m.setMem mm).x2 = m.x2 := rfl
@[simp] theorem setMem_x3 (mm : Memory) : (m.setMem mm).x3 = m.x3 := rfl
@[simp] theorem setMem_stack (mm : Memory) : (m.setMem mm).stack = m.stack := rfl
@[simp] theorem setMem_pc (mm : Memory) : (m.setMem mm).pc = m.pc := rfl
@[simp] theorem setMem_runState (mm : Memory) : (m.setMem mm).runState = m.runState := rfl
@[simp] theorem setMem_fault (mm : Memory) : (m.setMem mm).fault = m.fault := rfl
@[simp] theorem setMem_id (mm : Memory) : (m.setMem mm).id = m.id := rfl
@[simp] theorem setMem_ir (mm : Memory) : (m.setMem mm).ir = m.ir := rfl
@[simp] theorem setMem_events (mm : Memory) : (m.setMem mm).events = m.events := rfl
@[simp] theorem setMem_sensor (mm : Memory) : (m.setMem mm).sensor = m.sensor := rfl

/-! ### latch -/

@[simp] theorem latch_mem (b : Byte) : (m.latch b).mem = m.mem := rfl
@[simp] theorem latch_x0 (b : Byte) : (m.latch b).x0 = m.x0 := rfl
@[simp] theorem latch_x1 (b : Byte) : (m.latch b).x1 = m.x1 := rfl
@[simp] theorem latch_x2 (b : Byte) : (m.latch b).x2 = m.x2 := rfl
@[simp] theorem latch_x3 (b : Byte) : (m.latch b).x3 = m.x3 := rfl
@[simp] theorem latch_stack (b : Byte) : (m.latch b).stack = m.stack := rfl
@[simp] theorem latch_pc (b : Byte) : (m.latch b).pc = m.pc := rfl
@[simp] theorem latch_runState (b : Byte) : (m.latch b).runState = m.runState := rfl
@[simp] theorem latch_fault (b : Byte) : (m.latch b).fault = m.fault := rfl
@[simp] theorem latch_id (b : Byte) : (m.latch b).id = m.id := rfl
@[simp] theorem latch_ir (b : Byte) : (m.latch b).ir = b := rfl
@[simp] theorem latch_events (b : Byte) : (m.latch b).events = m.events := rfl
@[simp] theorem latch_sensor (b : Byte) : (m.latch b).sensor = m.sensor := rfl

/-! ### halt -/

@[simp] theorem halt_mem : (m.halt).mem = m.mem := rfl
@[simp] theorem halt_x0 : (m.halt).x0 = m.x0 := rfl
@[simp] theorem halt_x1 : (m.halt).x1 = m.x1 := rfl
@[simp] theorem halt_x2 : (m.halt).x2 = m.x2 := rfl
@[simp] theorem halt_x3 : (m.halt).x3 = m.x3 := rfl
@[simp] theorem halt_stack : (m.halt).stack = m.stack := rfl
@[simp] theorem halt_pc : (m.halt).pc = m.pc := rfl
@[simp] theorem halt_runState : (m.halt).runState = .halted := rfl
@[simp] theorem halt_fault : (m.halt).fault = m.fault := rfl
@[simp] theorem halt_id : (m.halt).id = m.id := rfl
@[simp] theorem halt_ir : (m.halt).ir = m.ir := rfl
@[simp] theorem halt_events : (m.halt).events = m.events := rfl
@[simp] theorem halt_sensor : (m.halt).sensor = m.sensor := rfl

/-! ### startRun -/

@[simp] theorem startRun_mem : (m.startRun).mem = m.mem := rfl
@[simp] theorem startRun_x0 : (m.startRun).x0 = m.x0 := rfl
@[simp] theorem startRun_x1 : (m.startRun).x1 = m.x1 := rfl
@[simp] theorem startRun_x2 : (m.startRun).x2 = m.x2 := rfl
@[simp] theorem startRun_x3 : (m.startRun).x3 = m.x3 := rfl
@[simp] theorem startRun_stack : (m.startRun).stack = m.stack := rfl
@[simp] theorem startRun_pc : (m.startRun).pc = 0#p.sw := rfl
@[simp] theorem startRun_runState : (m.startRun).runState = .running := rfl
@[simp] theorem startRun_fault : (m.startRun).fault = none := rfl
@[simp] theorem startRun_id : (m.startRun).id = m.id := rfl
@[simp] theorem startRun_ir : (m.startRun).ir = m.ir := rfl
@[simp] theorem startRun_events : (m.startRun).events = m.events := rfl
@[simp] theorem startRun_sensor : (m.startRun).sensor = m.sensor := rfl

/-! ### raise -/

@[simp] theorem raise_mem (k : FaultKind) (op : Nibble) : (m.raise k op).mem = m.mem := rfl
@[simp] theorem raise_x0 (k : FaultKind) (op : Nibble) : (m.raise k op).x0 = m.x0 := rfl
@[simp] theorem raise_x1 (k : FaultKind) (op : Nibble) : (m.raise k op).x1 = m.x1 := rfl
@[simp] theorem raise_x2 (k : FaultKind) (op : Nibble) : (m.raise k op).x2 = m.x2 := rfl
@[simp] theorem raise_x3 (k : FaultKind) (op : Nibble) : (m.raise k op).x3 = m.x3 := rfl
@[simp] theorem raise_stack (k : FaultKind) (op : Nibble) : (m.raise k op).stack = m.stack := rfl
@[simp] theorem raise_pc (k : FaultKind) (op : Nibble) : (m.raise k op).pc = m.pc := rfl
@[simp] theorem raise_runState (k : FaultKind) (op : Nibble) : (m.raise k op).runState = .faulted := rfl
@[simp] theorem raise_fault (k : FaultKind) (op : Nibble) : (m.raise k op).fault = some ⟨k, m.pc.setWidth 8, op⟩ := rfl
@[simp] theorem raise_id (k : FaultKind) (op : Nibble) : (m.raise k op).id = m.id := rfl
@[simp] theorem raise_ir (k : FaultKind) (op : Nibble) : (m.raise k op).ir = m.ir := rfl
@[simp] theorem raise_events (k : FaultKind) (op : Nibble) : (m.raise k op).events = m.events := rfl
@[simp] theorem raise_sensor (k : FaultKind) (op : Nibble) : (m.raise k op).sensor = m.sensor := rfl

/-! ### goSequential -/

@[simp] theorem goSequential_mem : (m.goSequential).mem = m.mem := rfl
@[simp] theorem goSequential_x0 : (m.goSequential).x0 = m.x0 := rfl
@[simp] theorem goSequential_x1 : (m.goSequential).x1 = m.x1 := rfl
@[simp] theorem goSequential_x2 : (m.goSequential).x2 = m.x2 := rfl
@[simp] theorem goSequential_x3 : (m.goSequential).x3 = m.x3 := rfl
@[simp] theorem goSequential_stack : (m.goSequential).stack = m.stack := rfl
@[simp] theorem goSequential_pc : (m.goSequential).pc = m.pc + 1#p.sw := rfl
@[simp] theorem goSequential_runState : (m.goSequential).runState = m.runState := rfl
@[simp] theorem goSequential_fault : (m.goSequential).fault = m.fault := rfl
@[simp] theorem goSequential_id : (m.goSequential).id = m.id := rfl
@[simp] theorem goSequential_ir : (m.goSequential).ir = m.ir := rfl
@[simp] theorem goSequential_events : (m.goSequential).events = m.events := rfl
@[simp] theorem goSequential_sensor : (m.goSequential).sensor = m.sensor := rfl

/-! ### goSkip -/

@[simp] theorem goSkip_mem : (m.goSkip).mem = m.mem := rfl
@[simp] theorem goSkip_x0 : (m.goSkip).x0 = m.x0 := rfl
@[simp] theorem goSkip_x1 : (m.goSkip).x1 = m.x1 := rfl
@[simp] theorem goSkip_x2 : (m.goSkip).x2 = m.x2 := rfl
@[simp] theorem goSkip_x3 : (m.goSkip).x3 = m.x3 := rfl
@[simp] theorem goSkip_stack : (m.goSkip).stack = m.stack := rfl
@[simp] theorem goSkip_pc : (m.goSkip).pc = m.pc + 2#p.sw := rfl
@[simp] theorem goSkip_runState : (m.goSkip).runState = m.runState := rfl
@[simp] theorem goSkip_fault : (m.goSkip).fault = m.fault := rfl
@[simp] theorem goSkip_id : (m.goSkip).id = m.id := rfl
@[simp] theorem goSkip_ir : (m.goSkip).ir = m.ir := rfl
@[simp] theorem goSkip_events : (m.goSkip).events = m.events := rfl
@[simp] theorem goSkip_sensor : (m.goSkip).sensor = m.sensor := rfl

/-! ### goTarget -/

@[simp] theorem goTarget_mem (n : Nibble) : (m.goTarget n).mem = m.mem := rfl
@[simp] theorem goTarget_x0 (n : Nibble) : (m.goTarget n).x0 = m.x0 := rfl
@[simp] theorem goTarget_x1 (n : Nibble) : (m.goTarget n).x1 = m.x1 := rfl
@[simp] theorem goTarget_x2 (n : Nibble) : (m.goTarget n).x2 = m.x2 := rfl
@[simp] theorem goTarget_x3 (n : Nibble) : (m.goTarget n).x3 = m.x3 := rfl
@[simp] theorem goTarget_stack (n : Nibble) : (m.goTarget n).stack = m.stack := rfl
@[simp] theorem goTarget_pc (n : Nibble) : (m.goTarget n).pc = n.setWidth p.sw := rfl
@[simp] theorem goTarget_runState (n : Nibble) : (m.goTarget n).runState = m.runState := rfl
@[simp] theorem goTarget_fault (n : Nibble) : (m.goTarget n).fault = m.fault := rfl
@[simp] theorem goTarget_id (n : Nibble) : (m.goTarget n).id = m.id := rfl
@[simp] theorem goTarget_ir (n : Nibble) : (m.goTarget n).ir = m.ir := rfl
@[simp] theorem goTarget_events (n : Nibble) : (m.goTarget n).events = m.events := rfl
@[simp] theorem goTarget_sensor (n : Nibble) : (m.goTarget n).sensor = m.sensor := rfl

/-! ### goReturn -/

@[simp] theorem goReturn_mem (e : BitVec p.sw) : (m.goReturn e).mem = m.mem := rfl
@[simp] theorem goReturn_x0 (e : BitVec p.sw) : (m.goReturn e).x0 = m.x0 := rfl
@[simp] theorem goReturn_x1 (e : BitVec p.sw) : (m.goReturn e).x1 = m.x1 := rfl
@[simp] theorem goReturn_x2 (e : BitVec p.sw) : (m.goReturn e).x2 = m.x2 := rfl
@[simp] theorem goReturn_x3 (e : BitVec p.sw) : (m.goReturn e).x3 = m.x3 := rfl
@[simp] theorem goReturn_stack (e : BitVec p.sw) : (m.goReturn e).stack = m.stack := rfl
@[simp] theorem goReturn_pc (e : BitVec p.sw) : (m.goReturn e).pc = e := rfl
@[simp] theorem goReturn_runState (e : BitVec p.sw) : (m.goReturn e).runState = m.runState := rfl
@[simp] theorem goReturn_fault (e : BitVec p.sw) : (m.goReturn e).fault = m.fault := rfl
@[simp] theorem goReturn_id (e : BitVec p.sw) : (m.goReturn e).id = m.id := rfl
@[simp] theorem goReturn_ir (e : BitVec p.sw) : (m.goReturn e).ir = m.ir := rfl
@[simp] theorem goReturn_events (e : BitVec p.sw) : (m.goReturn e).events = m.events := rfl
@[simp] theorem goReturn_sensor (e : BitVec p.sw) : (m.goReturn e).sensor = m.sensor := rfl

end Sys2Proof.Machine
end

