-- ==== Sys2Proof/Laws/Ops.lean ====
section
/-! SUPPORT. What each shared operation can do, said once. -/

namespace Sys2Proof.Machine

variable {p : Params} (m : Mcu p)

/-! ### Outcomes -/

/-- An operation on the core of a state goes on exactly when the operation does, with the same parameters. -/
theorem onMcu_eq_next_iff (f : Mcu p → Result p) (t : State) :
    onMcu ⟨p, m⟩ f = .next t ↔ ∃ t', f m = .next t' ∧ t = ⟨p, t'⟩ := by
  unfold onMcu
  cases h : f m <;> simp [eq_comm]

theorem onMcu_next (f : Mcu p → Result p) (t : Mcu p) (h : f m = .next t) :
    onMcu ⟨p, m⟩ f = .next ⟨p, t⟩ := by simp [onMcu, h]

theorem atPc_of_lt (r : Result p) (h : m.pc.toNat < memSize) : atPc m r = r := by simp [atPc, h]

theorem atPc_of_ge (r : Result p) (h : memSize ≤ m.pc.toNat) : atPc m r = .refused .executeOutsideMemory := by
  simp [atPc, Nat.not_lt.mpr h]

/-- An instruction that goes on stands inside memory. -/
theorem atPc_eq_next (r : Result p) (t : Mcu p) (h : atPc m r = .next t) : m.pc.toNat < memSize ∧ r = .next t := by
  unfold atPc at h
  split_ifs at h with hpc
  exact ⟨hpc, h⟩

theorem readCell_of_lt (a : Nat) (k : Byte → Result p) (h : a < memSize) :
    readCell m a k = k (Memory.lookup m.mem a) := by
  simp [readCell, read_of_lt m.mem a h]

/-- A cell read that goes on read a cell that exists, and nothing changed before it went on. -/
theorem readCell_eq_next (a : Nat) (k : Byte → Result p) (t : Mcu p) (h : readCell m a k = .next t) :
    ∃ b, Memory.read m.mem a = some b ∧ k b = .next t := by
  unfold readCell at h
  split at h
  · next b hb => exact ⟨b, hb, h⟩
  · cases h

/-! ### Operands -/

theorem cellOfOperand_eq (n : Nibble) : cellOfOperand n = n.toNat := by
  have := n.isLt
  simp only [cellOfOperand, BitVec.toNat_setWidth]
  omega

theorem cellOfOperand_lt (n : Nibble) : cellOfOperand n < memSize := by
  have := n.isLt
  rw [cellOfOperand_eq]
  simp only [memSize]
  omega

theorem sw_ge (p : Params) : 2 ^ 9 ≤ 2 ^ p.sw := Nat.pow_le_pow_right (by decide) (Nat.le_max_right _ _)

theorem xlen_le_sw (p : Params) : p.xlen ≤ p.sw := Nat.le_max_left _ _

theorem targetValue (p : Params) (n : Nibble) : (n.setWidth p.sw : BitVec p.sw).toNat = n.toNat := by
  have h := sw_ge p
  have := n.isLt
  rw [BitVec.toNat_setWidth, Nat.mod_eq_of_lt (by omega)]

/-- `pc + k` does not wrap while an instruction stands inside memory (10_state.md R27). -/
theorem pcPlus (k : Nat) (hk : k ≤ 2) (h : m.pc.toNat < memSize) :
    (m.pc + BitVec.ofNat p.sw k).toNat = m.pc.toNat + k := by
  have hs := sw_ge p
  simp only [memSize] at h
  rw [BitVec.toNat_add, BitVec.toNat_ofNat, Nat.add_mod_mod, Nat.mod_eq_of_lt (by omega)]

theorem byteToReg_toNat (p : Params) (h : p.valid = true) (b : Byte) : (byteToReg p b).toNat = b.toNat := by
  have hx : 8 ≤ p.xlen := by simp only [Params.valid, Bool.and_eq_true, decide_eq_true_eq] at h; exact h.1.1
  have := b.isLt
  have hp : 2 ^ 8 ≤ 2 ^ p.xlen := Nat.pow_le_pow_right (by decide) hx
  rw [byteToReg, BitVec.toNat_setWidth, Nat.mod_eq_of_lt (by omega)]

theorem regToEntry_toNat (p : Params) (v : BitVec p.xlen) : (regToEntry p v).toNat = v.toNat := by
  have := v.isLt
  have hp : 2 ^ p.xlen ≤ 2 ^ p.sw := Nat.pow_le_pow_right (by decide) (xlen_le_sw p)
  rw [regToEntry, BitVec.toNat_setWidth, Nat.mod_eq_of_lt (by omega)]

theorem entryToReg_toNat (p : Params) (e : BitVec p.sw) : (entryToReg p e).toNat = e.toNat % 2 ^ p.xlen := by
  rw [entryToReg, BitVec.toNat_setWidth]

theorem accIsZero_iff : m.accIsZero = true ↔ m.x0 = 0#p.xlen := by simp [Mcu.accIsZero]

/-- LOADIMM's literal: past the end of memory the fault is taken, elsewhere the byte at `pc + 1` is read. -/
theorem readLiteral_eq_next (op : Nibble) (k : Byte → Result p) (t : Mcu p) (h : readLiteral m op k = .next t) :
    (255 ≤ m.pc.toNat ∧ t = m.raise .addressOutOfRange op) ∨
      (m.pc.toNat < 255 ∧ ∃ b, Memory.read m.mem (m.pc.toNat + 1) = some b ∧ k b = .next t) := by
  unfold readLiteral Mcu.literalAddress at h
  split_ifs at h with hpc
  · simp only [memSize] at hpc
    exact .inl ⟨by omega, by simpa using h.symm⟩
  · simp only [memSize] at hpc
    exact .inr ⟨by omega, readCell_eq_next m _ k t h⟩

/-! ### The stack -/

theorem full_iff : m.full = true ↔ p.stackDepth = some m.stack.length := by simp [Mcu.full]

/-- A push takes the fault on a full stack, and otherwise goes on with the value on top. -/
theorem pushStack_eq (op : Nibble) (v : BitVec p.sw) (k : Mcu p → Result p) :
    pushStack m op v k =
      if p.stackDepth = some m.stack.length then .next (m.raise .stackOverflow op)
      else k (m.setStack (v :: m.stack)) := by
  unfold pushStack
  by_cases h : p.stackDepth = some m.stack.length <;> simp [Mcu.full, h]

/-- A pop of an empty stack takes the fault. -/
theorem popStack_nil (op : Nibble) (k : BitVec p.sw → Mcu p → Result p) (h : m.stack = []) :
    popStack m op k = .next (m.raise .stackUnderflow op) := by
  simp [popStack, h]

/-- A pop of a stack with an entry goes on with that entry and without it on the stack. -/
theorem popStack_cons (op : Nibble) (k : BitVec p.sw → Mcu p → Result p) (v : BitVec p.sw)
    (rest : List (BitVec p.sw)) (h : m.stack = v :: rest) : popStack m op k = k v (m.setStack rest) := by
  simp [popStack, h]

/-! ### The ports -/

theorem sensorRead_absent : Sensor.read .absent = (0x00#8, .absent) := rfl

theorem sensorRead_reply (b : Byte) (rest : List Byte) (n : Nat) :
    Sensor.read (.attached (b :: rest) n) = (b, .attached rest (n + 1)) := rfl

theorem sensorRead_free (n : Nat) :
    Sensor.read (.attached [] n) = (Config.sensorByte n, .attached [] (n + 1)) := rfl

/-! ### Memory of the core -/

/-- Storing an instruction where the next step fetches keeps the canonical form. -/
theorem withFetchBytes_mem_wf (bytes : List Byte) (h : Memory.wf m.mem = true) :
    Memory.wf (m.withFetchBytes bytes).mem = true := by
  unfold Mcu.withFetchBytes
  split_ifs
  · exact writeAll_wf bytes m.mem _ h
  · exact writeAll_wf bytes m.mem _ h

/-! ### Taking a fault -/

/-- The fault record of a core inside memory holds its pc (60_exceptions.md R175). -/
theorem raise_fpc (h : m.pc.toNat < memSize) : (m.pc.setWidth 8).toNat = m.pc.toNat := by
  simp only [memSize] at h
  rw [BitVec.toNat_setWidth, Nat.mod_eq_of_lt (by omega)]

end Sys2Proof.Machine
end

