-- ==== Sys2Proof/Laws/Exec.lean ====
section
/-! SUPPORT. What an instruction does, said once: inside memory every instruction goes on, with the core `effect i m`;
elsewhere it is refused. -/

namespace Sys2Proof.Machine

variable {p : Params}

/-- The core after the instruction `i` standing at the pc of `m`, in the updates of Ops.lean. -/
def effect (i : Instr) (m : Mcu p) : Mcu p :=
  match i with
  | .nop => m.goSequential
  | .inc => (m.setX0 (m.x0 + 1#p.xlen)).goSequential
  | .print => (m.emit (.print m.x0)).goSequential
  | .add => (m.setX0 (m.x0 + m.x1)).goSequential
  | .loadimm =>
    if m.pc.toNat = 255 then m.raise .addressOutOfRange 0x4#4
    else (m.setX1 (byteToReg p (Memory.lookup m.mem (m.pc.toNat + 1)))).goSkip
  | .beqz target => if m.x0 = 0#p.xlen then m.goTarget target else m.goSequential
  | .load addr => (m.setX0 (byteToReg p (Memory.lookup m.mem addr.toNat))).goSequential
  | .sub => (m.setX0 (m.x0 - m.x1)).goSequential
  | .call target =>
    if p.stackDepth = some m.stack.length then m.raise .stackOverflow 0x8#4
    else (m.setStack (m.returnAddress :: m.stack)).goTarget target
  | .ret =>
    match m.stack with
    | [] => m.raise .stackUnderflow 0x9#4
    | e :: rest => (m.setStack rest).goReturn e
  | .push =>
    if p.stackDepth = some m.stack.length then m.raise .stackOverflow 0xA#4
    else (m.setStack (regToEntry p m.x0 :: m.stack)).goSequential
  | .pop =>
    match m.stack with
    | [] => m.raise .stackUnderflow 0xB#4
    | e :: rest => ((m.setStack rest).setX0 (entryToReg p e)).goSequential
  | .sense =>
    (((m.setSensor m.sensor.read.2).emit (.sense m.sensor.read.1)).setX0
      (byteToReg p m.sensor.read.1)).goSequential
  | .nopD => m.goSequential
  | .nopE => m.goSequential
  | .nopF => m.goSequential

/-- Inside memory every instruction goes on. -/
theorem exec_eq_effect (i : Instr) (m : Mcu p) (h : m.pc.toNat < memSize) :
    exec i ⟨p, m⟩ = .next ⟨p, effect i m⟩ := by
  cases i <;> simp only [exec, effect]
  case nop => simp [execNop, onMcu, atPc_of_lt, h]
  case inc => simp [execInc, onMcu, atPc_of_lt, h]
  case print => simp [execPrint, onMcu, atPc_of_lt, h]
  case add => simp [execAdd, onMcu, atPc_of_lt, h]
  case loadimm =>
    simp only [execLoadimm, onMcu, atPc_of_lt _ _ h, readLiteral, Mcu.literalAddress]
    simp only [memSize] at h
    by_cases h255 : m.pc.toNat = 255
    · simp [h255]
    · have h1 : ¬ memSize ≤ m.pc.toNat + 1 := by simp only [memSize]; omega
      simp only [h1, if_false, h255]
      rw [readCell_of_lt _ _ _ (by omega)]
  case beqz target =>
    by_cases hz : m.x0 = 0#p.xlen <;> simp [execBeqz, onMcu, atPc_of_lt, h, Mcu.accIsZero, hz]
  case load addr =>
    simp only [execLoad, onMcu, atPc_of_lt _ _ h]
    rw [readCell_of_lt _ _ _ (cellOfOperand_lt addr), cellOfOperand_eq]
  case sub => simp [execSub, onMcu, atPc_of_lt, h]
  case call target =>
    simp only [execCall, onMcu, atPc_of_lt _ _ h, pushStack_eq]
    by_cases hf : p.stackDepth = some m.stack.length <;> simp [hf]
  case ret =>
    simp only [execRet, onMcu, atPc_of_lt _ _ h]
    cases hs : m.stack with
    | nil => simp [popStack_nil m _ _ hs]
    | cons e rest => simp [popStack_cons m _ _ e rest hs]
  case push =>
    simp only [execPush, onMcu, atPc_of_lt _ _ h, pushStack_eq]
    by_cases hf : p.stackDepth = some m.stack.length <;> simp [hf]
  case pop =>
    simp only [execPop, onMcu, atPc_of_lt _ _ h]
    cases hs : m.stack with
    | nil => simp [popStack_nil m _ _ hs]
    | cons e rest => simp [popStack_cons m _ _ e rest hs]
  case sense => simp [execSense, onMcu, atPc_of_lt, h, readSensor]
  case nopD => simp [execNopD, onMcu, atPc_of_lt, h]
  case nopE => simp [execNopE, onMcu, atPc_of_lt, h]
  case nopF => simp [execNopF, onMcu, atPc_of_lt, h]

/-- An instruction that goes on stands inside memory, and the core after it is its effect. -/
theorem exec_eq_next (i : Instr) (m : Mcu p) (s : State) (h : exec i ⟨p, m⟩ = .next s) :
    m.pc.toNat < memSize ∧ s = ⟨p, effect i m⟩ := by
  by_cases hpc : m.pc.toNat < memSize
  · rw [exec_eq_effect i m hpc] at h
    exact ⟨hpc, by simpa using h.symm⟩
  · exfalso
    have hge : memSize ≤ m.pc.toNat := Nat.not_lt.mp hpc
    cases i <;>
      simp [exec, execNop, execInc, execPrint, execAdd, execLoadimm, execBeqz, execLoad, execSub, execCall, execRet,
        execPush, execPop, execSense, execNopD, execNopE, execNopF, onMcu, atPc_of_ge m _ hge] at h

end Sys2Proof.Machine
end

