-- ==== Sys2Proof/Laws/Step.lean ====
section
/-! SUPPORT. What a step does, said once. -/

namespace Sys2Proof.Machine

variable {p : Params}

/-- Past the end of memory the step halts the run and changes nothing else. -/
theorem stepInstruction_halts (m : Mcu p) (h : memSize ≤ m.pc.toNat) :
    stepInstruction ⟨p, m⟩ = .next ⟨p, m.halt⟩ := by
  unfold stepInstruction
  exact if_pos h

/-- Inside memory the step is the effect of the instruction at the pc, its byte latched. -/
theorem stepInstruction_executes (m : Mcu p) (h : m.pc.toNat < memSize) :
    stepInstruction ⟨p, m⟩ =
      .next ⟨p, effect (decodeByte (Memory.lookup m.mem m.pc.toNat)) (m.latch (Memory.lookup m.mem m.pc.toNat))⟩ := by
  unfold stepInstruction
  rw [if_neg (Nat.not_le.mpr h)]
  simp only [read_of_lt m.mem _ h, executeByte]
  exact exec_eq_effect _ _ h

/-- A run in progress goes on. -/
theorem beginRun_of_running (s : State) (h : s.mcu.runState = .running) : beginRun s = s := if_pos h

/-- Elsewhere a run starts. -/
theorem beginRun_of_waiting (s : State) (h : s.mcu.runState ≠ .running) :
    beginRun s = ⟨s.params, s.mcu.startRun⟩ := if_neg h

/-- After `beginRun` a run is in progress. -/
theorem beginRun_runState (s : State) : (beginRun s).mcu.runState = .running := by
  by_cases h : s.mcu.runState = .running
  · rw [beginRun_of_running s h]; exact h
  · rw [beginRun_of_waiting s h]; rfl

/-- While a run is in progress `step` is one instruction. -/
theorem step_running (m : Mcu p) (h : m.runState = .running) : step ⟨p, m⟩ = stepInstruction ⟨p, m⟩ := by
  unfold step hostStep beginRun
  rw [if_pos h]

/-- Elsewhere `step` starts a run and does its first instruction. -/
theorem step_waiting (m : Mcu p) (h : m.runState ≠ .running) : step ⟨p, m⟩ = stepInstruction ⟨p, m.startRun⟩ := by
  unfold step hostStep beginRun
  rw [if_neg h]

end Sys2Proof.Machine
end

