-- ==== Sys2Proof/Laws/Host.lean ====
section
/-! SUPPORT. What a move of the host, a move of the core and an operation of the platform can do, each said once. -/

namespace Sys2Proof.Machine

/-! ## The fields of a session and of a platform -/

@[simp] theorem atHost_control (s : State) : (Session.atHost s).control = .host := rfl
@[simp] theorem atHost_state (s : State) : (Session.atHost s).state = s := rfl
@[simp] theorem atLoopTest_state (s : State) : (Session.atLoopTest s).state = s := rfl
@[simp] theorem atLoopTest_control_core (s : State) :
    (Session.atLoopTest s).control = .core ↔ s.mcu.runState = .running := by
  unfold Session.atLoopTest
  split_ifs with h <;> simp [h]
@[simp] theorem atLoopTest_control_host (s : State) :
    (Session.atLoopTest s).control = .host ↔ s.mcu.runState ≠ .running := by
  unfold Session.atLoopTest
  split_ifs with h <;> simp [h]

variable {M : Type}

@[simp] theorem setUnit_units (n : Platform M) (ref : Nat) (c : Session) :
    (n.setUnit ref c).units = n.units.set ref c := rfl
@[simp] theorem setUnit_network (n : Platform M) (ref : Nat) (c : Session) : (n.setUnit ref c).network = n.network := rfl
@[simp] theorem setUnit_receipts (n : Platform M) (ref : Nat) (c : Session) :
    (n.setUnit ref c).receipts = n.receipts := rfl
@[simp] theorem create_units (units : List Session) : (Platform.create M units).units = units := rfl
@[simp] theorem create_network (units : List Session) : (Platform.create M units).network = .empty := rfl
@[simp] theorem create_receipts (units : List Session) : (Platform.create M units).receipts = [] := rfl

/-- A unit put back as it was. -/
theorem setUnit_self (n : Platform M) (ref : Nat) (c : Session) (h : n.units[ref]? = some c) : n.setUnit ref c = n := by
  obtain ⟨hlt, rfl⟩ := List.getElem?_eq_some_iff.mp h
  simp [Platform.setUnit]

/-! ## Moves of one unit -/

/-- `load` leaves the state as it is, or writes the program into memory and nothing else. -/
theorem hostLoad_state (program : List Byte) (s : State) :
    (hostLoad program s).2 = s ∨
      (hostLoad program s).2 = ⟨s.params, s.mcu.setMem (Memory.writeAll s.mcu.mem 0 program)⟩ := by
  unfold hostLoad
  split_ifs
  · exact .inl rfl
  · exact .inr rfl
  · exact .inl rfl

theorem mapNext_eq_next {α β : Type} (f : α → β) (o : Host.Outcome α Fault Refusal) (b : β) :
    mapNext f o = .next b ↔ ∃ a, o = .next a ∧ f a = b := by
  cases o <;> simp [mapNext]

/-- During a `run` the host has no move. -/
theorem hostMove_core (op : HostOp) (c : Session) (h : c.control = .core) : hostMove op c = none := by
  simp [hostMove, h]

/-- While the host has the control, each transaction as it is written. -/
theorem hostMove_host (op : HostOp) (c : Session) (h : c.control = .host) :
    hostMove op c =
      some (match op with
        | .reset => .next (.atHost (hostReset c.state))
        | .load program => .next (.atHost (hostLoad program c.state).2)
        | .step => mapNext .atHost (hostStep c.state)
        | .run => .next (.atLoopTest (beginRun c.state))) := by
  cases op <;> simp [hostMove, h]

/-- A move of the host that goes on: the host had the control, and what each transaction leaves. -/
theorem hostMove_eq_next (op : HostOp) (c d : Session) (h : hostMove op c = some (.next d)) :
    c.control = .host ∧
      match op with
      | .reset => d = .atHost (hostReset c.state)
      | .load program => d = .atHost (hostLoad program c.state).2
      | .step => ∃ t, hostStep c.state = .next t ∧ d = .atHost t
      | .run => d = .atLoopTest (beginRun c.state) := by
  cases hc : c.control with
  | core => simp [hostMove, hc] at h
  | host =>
    rw [hostMove_host op c hc] at h
    cases op <;> simp only [Option.some.injEq, Host.Outcome.next.injEq, mapNext_eq_next] at h
    case step =>
      obtain ⟨t, ht, hd⟩ := h
      exact ⟨rfl, t, ht, hd.symm⟩
    all_goals exact ⟨rfl, h.symm⟩

/-- While the host has the control the core has no move. -/
theorem coreMove_host (c : Session) (h : c.control = .host) : coreMove c = none := by
  simp [coreMove, h]

/-- A move of the core in the middle of a run. -/
theorem coreMove_running (c : Session) (h : c.control = .core) (hr : c.state.mcu.runState = .running) :
    coreMove c = some (mapNext .atLoopTest (stepInstruction c.state)) := by
  simp [coreMove, h, hr]

/-- A move of the core that goes on: the core had the control; it did one instruction, or it stood where no run is in
progress and hands the control back. -/
theorem coreMove_eq_next (c d : Session) (h : coreMove c = some (.next d)) :
    c.control = .core ∧
      ((c.state.mcu.runState = .running ∧ ∃ t, stepInstruction c.state = .next t ∧ d = .atLoopTest t) ∨
        (c.state.mcu.runState ≠ .running ∧ d = .atHost c.state)) := by
  cases hc : c.control with
  | host => simp [coreMove, hc] at h
  | core =>
    by_cases hr : c.state.mcu.runState = .running
    · rw [coreMove_running c hc hr] at h
      obtain ⟨t, ht, hd⟩ := (mapNext_eq_next _ _ _).mp (Option.some.inj h)
      exact ⟨rfl, .inl ⟨hr, t, ht, hd.symm⟩⟩
    · simp only [coreMove, hc, hr, if_false, Option.some.injEq, Host.Outcome.next.injEq] at h
      exact ⟨rfl, .inr ⟨hr, h.symm⟩⟩

/-- A delivery that is made changes nothing; it is made where the host has the control and the unit is not RUNNING. -/
theorem session_receive_eq_some (source : Nat) (message : M) (c : Session) (r : Receipt M × Session) :
    c.receive source message = some r ↔
      c.control = .host ∧ c.state.mcu.runState ≠ .running ∧ r = (⟨c.unitId, source, message⟩, c) := by
  obtain ⟨control, s⟩ := c
  cases control with
  | core => simp [Session.receive]
  | host =>
    by_cases h : s.mcu.runState = .running <;>
      simp [Session.receive, receive, h, Session.unitId, Session.atHost, eq_comm]

/-! ## Operations of a platform -/

theorem hostHasControl_iff (n : Platform M) : n.hostHasControl = true ↔ ∀ c ∈ n.units, c.control = .host := by
  simp [Platform.hostHasControl]

/-- A move of the host on one unit that goes on: the host had the control of every unit, and only that unit moved. -/
theorem platform_hostMove_eq_next (n n' : Platform M) (ref : Nat) (op : HostOp)
    (h : n.hostMove ref op = some (.next n')) :
    n.hostHasControl = true ∧ ∃ c d, n.units[ref]? = some c ∧ hostMove op c = some (.next d) ∧ n' = n.setUnit ref d := by
  unfold Platform.hostMove at h
  split_ifs at h with hc
  obtain ⟨c, hu, h⟩ := Option.bind_eq_some_iff.mp h
  obtain ⟨o, ho, h⟩ := Option.map_eq_some_iff.mp h
  obtain ⟨d, rfl, hd⟩ := (mapNext_eq_next _ _ _).mp h
  exact ⟨hc, c, d, hu, ho, hd.symm⟩

/-- A move of the core of one unit that goes on: only that unit moved. -/
theorem platform_coreMove_eq_next (n n' : Platform M) (ref : Nat) (h : n.coreMove ref = some (.next n')) :
    ∃ c d, n.units[ref]? = some c ∧ coreMove c = some (.next d) ∧ n' = n.setUnit ref d := by
  unfold Platform.coreMove at h
  obtain ⟨c, hu, h⟩ := Option.bind_eq_some_iff.mp h
  obtain ⟨o, ho, h⟩ := Option.map_eq_some_iff.mp h
  obtain ⟨d, rfl, hd⟩ := (mapNext_eq_next _ _ _).mp h
  exact ⟨c, d, hu, ho, hd.symm⟩

/-- A registration that is made enters the unit's reference under its identifier and changes nothing else. -/
theorem register_eq_some (n n' : Platform M) (ref : Nat) :
    n.register ref = some n' ↔
      n.hostHasControl = true ∧
        ∃ c, n.units[ref]? = some c ∧ n' = { n with network := n.network.enter c.unitId ref } := by
  unfold Platform.register
  split_ifs with hc
  · simp [hc, eq_comm]
  · simp [hc]

/-- A `send` leaves the units and the network as they are and adds at most one receipt, that of the unit the directory
refers to. -/
theorem send_cases (n : Platform M) (source dest : Nat) (message : M) :
    ((n.send source dest message).1 ≠ .delivered ∧ (n.send source dest message).2 = n) ∨
      ∃ c, n.hostHasControl = true ∧ n.unitOf dest = some c ∧ c.state.mcu.runState ≠ .running ∧
        n.send source dest message =
          (.delivered, { n with receipts := n.receipts ++ [⟨c.unitId, source, message⟩] }) := by
  by_cases hh : n.hostHasControl = true
  · cases hf : n.network.find dest with
    | none => left; simp [Platform.send, hh, hf]
    | some ref =>
      cases hu : n.units[ref]? with
      | none => left; simp [Platform.send, hh, hf, hu]
      | some c =>
        cases hr : c.receive source message with
        | none => left; simp [Platform.send, hh, hf, hu, hr]
        | some r =>
          right
          obtain ⟨-, hrun, rfl⟩ := (session_receive_eq_some source message c r).mp hr
          refine ⟨c, hh, by simp [Platform.unitOf, hf, hu], hrun, ?_⟩
          simp [Platform.send, hh, hf, hu, hr, setUnit_self n ref c hu]
  · left; simp [Platform.send, hh]

end Sys2Proof.Machine
end

