-- ==== Sys2Proof/Laws/PerInstr.lean ====
section
/-! SUPPORT. Per-instruction families (LAWS.json): one lemma per constructor of Instr. -/

namespace Sys2Proof.Laws

/-- The first byte of `i` holds its two fields (30_encoding.md R80, R84), decodes to `i`, and tells its length
(30_encoding.md R82). -/
def FirstByte.Statement (i : Instr) : Prop :=
  opcodeOf (encodeByte i) = i.opcode ∧ operandOf (encodeByte i) = i.operand ∧ decodeByte (encodeByte i) = i ∧
    (i.length = 2 ↔ i.opcode = 0x4#4)

theorem FirstByte.nop : FirstByte.Statement .nop := by
  unfold FirstByte.Statement
  decide

theorem FirstByte.inc : FirstByte.Statement .inc := by
  unfold FirstByte.Statement
  decide

theorem FirstByte.print : FirstByte.Statement .print := by
  unfold FirstByte.Statement
  decide

theorem FirstByte.add : FirstByte.Statement .add := by
  unfold FirstByte.Statement
  decide

theorem FirstByte.loadimm : FirstByte.Statement .loadimm := by
  unfold FirstByte.Statement
  decide

theorem FirstByte.beqz (t : Nibble) : FirstByte.Statement (.beqz t) := by
  unfold FirstByte.Statement
  revert t
  decide

theorem FirstByte.load (t : Nibble) : FirstByte.Statement (.load t) := by
  unfold FirstByte.Statement
  revert t
  decide

theorem FirstByte.sub : FirstByte.Statement .sub := by
  unfold FirstByte.Statement
  decide

theorem FirstByte.call (t : Nibble) : FirstByte.Statement (.call t) := by
  unfold FirstByte.Statement
  revert t
  decide

theorem FirstByte.ret : FirstByte.Statement .ret := by
  unfold FirstByte.Statement
  decide

theorem FirstByte.push : FirstByte.Statement .push := by
  unfold FirstByte.Statement
  decide

theorem FirstByte.pop : FirstByte.Statement .pop := by
  unfold FirstByte.Statement
  decide

theorem FirstByte.sense : FirstByte.Statement .sense := by
  unfold FirstByte.Statement
  decide

theorem FirstByte.nopD : FirstByte.Statement .nopD := by
  unfold FirstByte.Statement
  decide

theorem FirstByte.nopE : FirstByte.Statement .nopE := by
  unfold FirstByte.Statement
  decide

theorem FirstByte.nopF : FirstByte.Statement .nopF := by
  unfold FirstByte.Statement
  decide

end Sys2Proof.Laws
end

