-- ==== Sys2Proof/Tests/Slice0.lean ====
section
/-! SUPPORT. The model's own tests: what the encoding refuses, instruction bytes and single steps of the spec's vectors
(95_test_vectors.md, named in each comment), and for each statement with hypotheses a state that meets them. -/

namespace Sys2Proof.Machine.Tests

/-! ## Well-formedness: a line of each wrong shape is refused -/

theorem test_wellFormed_refuses_missing_literal : Line.wellFormed ⟨.loadimm, none⟩ = false := by decide
theorem test_wellFormed_refuses_extra_literal : Line.wellFormed ⟨.inc, some 5#8⟩ = false := by decide
theorem test_wellFormed_admits : Line.wellFormed ⟨.loadimm, some 255#8⟩ = true ∧ Line.wellFormed ⟨.beqz 15, none⟩ = true := by
  decide
theorem test_itemWellFormed_refuses : Item.wellFormed (.code ⟨.loadimm, none⟩) = false := by decide
theorem test_programFits_refuses_257 : programFits (List.replicate 257 0x00#8) = false := by
  rw [programFits, List.length_replicate]; decide
theorem test_programFits_admits_256 : programFits (List.replicate 256 0x00#8) = true := by
  rw [programFits, List.length_replicate]; decide
theorem test_params_refuse_narrow : Params.valid ⟨7, none, 8⟩ = false := by decide
theorem test_params_refuse_no_stack : Params.valid ⟨8, some 0, 8⟩ = false := by decide
theorem test_params_refuse_no_id : Params.valid ⟨8, none, 0⟩ = false := by decide
theorem test_params_admit_least : Params.valid ⟨8, some 1, 1⟩ = true := by decide

/-! ## Decoding: bytes written out from 30_encoding.md R84 -/

theorem test_decode_nop : decodeByte 0b00000000#8 = .nop := by decide
theorem test_decode_inc : decodeByte 0b00010001#8 = .inc := by decide
theorem test_decode_print : decodeByte 0b00100001#8 = .print := by decide
theorem test_decode_add : decodeByte 0b00110001#8 = .add := by decide
theorem test_decode_loadimm : decode [0b01000001#8, 0x0A#8] = .ok (⟨.loadimm, some 10#8⟩, []) := by rfl
theorem test_decode_beqz : decodeByte 0b01011011#8 = .beqz 11#4 := by decide
theorem test_decode_load : decodeByte 0b01101111#8 = .load 15#4 := by decide
theorem test_decode_sub : decodeByte 0b01110000#8 = .sub := by decide
theorem test_decode_call : decodeByte 0b10000001#8 = .call 1#4 := by decide
theorem test_decode_ret : decodeByte 0b10010001#8 = .ret := by decide
theorem test_decode_push : decodeByte 0b10100000#8 = .push := by decide
theorem test_decode_pop : decodeByte 0b10110000#8 = .pop := by decide
theorem test_decode_sense : decodeByte 0b11000000#8 = .sense := by decide
theorem test_decode_nopD : decodeByte 0b11010101#8 = .nopD := by decide
theorem test_decode_nopE : decodeByte 0b11100000#8 = .nopE := by decide
theorem test_decode_nopF : decodeByte 0b11111111#8 = .nopF := by decide
theorem test_decode_refuses_cut_loadimm : decode [0x40#8] = .error .literalMissing := by rfl
theorem test_decode_refuses_nothing : decode [] = .error .noByte := by rfl
/-- Scenario A's six bytes (95_test_vectors.md S-A). -/
theorem test_disassemble_scenarioA :
    disassemble [0x11#8, 0x11#8, 0x41#8, 0x0A#8, 0x31#8, 0x21#8] =
      .ok [⟨.inc, none⟩, ⟨.inc, none⟩, ⟨.loadimm, some 10#8⟩, ⟨.add, none⟩, ⟨.print, none⟩] := by rfl
/-- The listing of P1 (95_test_vectors.md Part 3) with a data byte after it. -/
theorem test_assembleItems :
    assembleItems [.code ⟨.inc, none⟩, .code ⟨.loadimm, some 10#8⟩, .code ⟨.add, none⟩, .byte 3#8] =
      [0x10#8, 0x40#8, 0x0A#8, 0x30#8, 0x03#8] := by decide
theorem test_tableWord_loadimm : decodeTableWord 16 0x0A41 = some .loadimm := by decide
theorem test_tableWord_call : decodeTableWord 8 0x8F = some (.call 15#4) := by decide
theorem test_tableWord_upper_bits_dropped : decodeTableWord 8 0x115F = some (.beqz 15#4) := by decide

/-! ## Single steps -/

/-- XLEN 8 and an unbounded stack (95_test_vectors.md, Conventions). -/
abbrev p8 : Params := ⟨8, none, 8⟩
/-- XLEN 16. -/
abbrev p16 : Params := ⟨16, none, 8⟩
/-- XLEN 8 and a stack of one entry. -/
abbrev p8d1 : Params := ⟨8, some 1, 8⟩

/-- A fresh core in the middle of a run, at `pc`. -/
abbrev core (p : Params) (pc : Nat) : Mcu p :=
  { Mcu.fresh p (BitVec.ofNat _ 1) .absent with pc := BitVec.ofNat _ pc, runState := .running }

/-- Two numbers read off the state an outcome goes on with. -/
def look (o : Outcome) (f g : State → Nat) : Option (Nat × Nat) :=
  match o with
  | .next s => some (f s, g s)
  | .fault _ => none
  | .refused _ => none

abbrev pcOf (s : State) : Nat := s.mcu.pc.toNat
abbrev x0Of (s : State) : Nat := s.mcu.x0.toNat
abbrev x1Of (s : State) : Nat := s.mcu.x1.toNat
/-- The top of the stack, 9999 where it is empty. -/
def topOf (s : State) : Nat := (s.mcu.stack.map BitVec.toNat).headD 9999
/-- kind, fpc and fopcode of the fault record as one number, and 0 where there is none. -/
def faultOf (s : State) : Nat :=
  s.mcu.faultKindField.toNat * 65536 + s.mcu.faultPcField.toNat * 256 + s.mcu.faultOpcodeField.toNat
/-- The last print event. -/
def lastPrint (s : State) : Nat := ((printHistory s.mcu.events).map BitVec.toNat).getLastD 9999

/-- TA2. -/
theorem test_inc_wraps :
    look (exec .inc ⟨p8, { core p8 9 with x0 := 255#8 }⟩) x0Of pcOf = some (0, 10) := by decide
/-- TA3. -/
theorem test_inc_wide : look (exec .inc ⟨p16, { core p16 0 with x0 := 255#16 }⟩) x0Of pcOf = some (256, 1) := by decide
/-- TA6. -/
theorem test_add_wraps :
    look (exec .add ⟨p8, { core p8 4 with x0 := 200#8, x1 := 100#8 }⟩) x0Of x1Of = some (44, 100) := by decide
/-- TA13. -/
theorem test_sub_borrows :
    look (exec .sub ⟨p8, { core p8 6 with x0 := 100#8, x1 := 200#8 }⟩) x0Of x1Of = some (156, 200) := by decide
/-- TM2, the wide case: zero-extended. -/
theorem test_loadimm_zero_extends :
    look (exec .loadimm ⟨p16, { core p16 0 with mem := [(1, 0xFF#8)] }⟩) x1Of pcOf = some (255, 2) := by decide
/-- TM4. -/
theorem test_loadimm_faults_at_255 :
    look (exec .loadimm ⟨p8, { core p8 255 with x1 := 9#8 }⟩) faultOf pcOf = some (1 * 65536 + 255 * 256 + 4, 255) := by
  decide
/-- TM6. -/
theorem test_load_reads :
    look (exec (.load 15) ⟨p8, { core p8 2 with mem := [(15, 0x03#8)] }⟩) x0Of pcOf = some (3, 3) := by decide
/-- TM8: absolute, from anywhere. -/
theorem test_load_absolute :
    look (exec (.load 0) ⟨p8, { core p8 200 with mem := [(0, 0xFF#8)] }⟩) x0Of pcOf = some (255, 201) := by decide
/-- TB3. -/
theorem test_beqz_taken : look (exec (.beqz 0) ⟨p8, core p8 200⟩) x0Of pcOf = some (0, 0) := by decide
/-- TB6: all 16 bits are tested. -/
theorem test_beqz_wide : look (exec (.beqz 9) ⟨p16, { core p16 3 with x0 := 256#16 }⟩) x0Of pcOf = some (256, 4) := by
  decide
/-- TB10. -/
theorem test_call_at_255 : look (exec (.call 5) ⟨p8, core p8 255⟩) topOf pcOf = some (257, 5) := by decide
/-- TB11, with a stack of one entry. -/
theorem test_call_overflows :
    look (exec (.call 3) ⟨p8d1, { core p8d1 5 with stack := [7#9] }⟩) faultOf pcOf =
      some (3 * 65536 + 5 * 256 + 8, 5) := by decide
/-- TB14. -/
theorem test_ret_jumps :
    look (exec .ret ⟨p8, { core p8 9 with stack := [200#9, 4#9] }⟩) topOf pcOf = some (4, 200) := by decide
/-- TB13. -/
theorem test_ret_underflows : look (exec .ret ⟨p8, core p8 7⟩) faultOf pcOf = some (2 * 65536 + 7 * 256 + 9, 7) := by
  decide
/-- TK2. -/
theorem test_push_zero_extends :
    look (exec .push ⟨p8, { core p8 4 with x0 := 255#8 }⟩) topOf pcOf = some (255, 5) := by decide
/-- TK3. -/
theorem test_push_overflows :
    look (exec .push ⟨p8d1, { core p8d1 3 with stack := [0#9] }⟩) faultOf topOf = some (3 * 65536 + 3 * 256 + 10, 0) := by
  decide
/-- TK7. -/
theorem test_pop_truncates :
    look (exec .pop ⟨p8, { core p8 9 with stack := [257#9], x0 := 9#8 }⟩) x0Of topOf = some (1, 9999) := by decide
/-- TK5. -/
theorem test_pop_underflows :
    look (exec .pop ⟨p8, { core p8 5 with x0 := 5#8 }⟩) faultOf x0Of = some (2 * 65536 + 5 * 256 + 11, 5) := by decide
/-- TE3. -/
theorem test_print_wide :
    look (exec .print ⟨p16, { core p16 5 with x0 := 65535#16 }⟩) lastPrint pcOf = some (65535, 6) := by decide
/-- TE7: zero-extended. -/
theorem test_sense_reads :
    look (exec .sense ⟨p16, { core p16 0 with sensor := .attached [255#8] 0 }⟩) x0Of pcOf = some (255, 1) := by decide
/-- TE6. -/
theorem test_sense_absent : look (exec .sense ⟨p8, { core p8 0 with x0 := 99#8 }⟩) x0Of pcOf = some (0, 1) := by decide
/-- TN1. -/
theorem test_nop : look (exec .nop ⟨p8, core p8 6⟩) x0Of pcOf = some (0, 7) := by decide
/-- TN3. -/
theorem test_nopD : look (exec .nopD ⟨p8, core p8 6⟩) x0Of pcOf = some (0, 7) := by decide
/-- TN4. -/
theorem test_nopE : look (exec .nopE ⟨p8, core p8 6⟩) x0Of pcOf = some (0, 7) := by decide
/-- TN5. -/
theorem test_nopF : look (exec .nopF ⟨p8, core p8 255⟩) x0Of pcOf = some (0, 256) := by decide

/-! ## The step and the host operations -/

/-- TH6, its first step, on Scenario A. -/
theorem test_step_starts_a_run :
    look (step (hostLoad [0x11#8, 0x11#8, 0x41#8, 0x0A#8, 0x31#8, 0x21#8] State.reset).2) x0Of pcOf = some (1, 1) := by
  decide
/-- TM3's next step. -/
theorem test_step_halts : look (step ⟨p8, core p8 256⟩) (fun s => s.mcu.runState.code.toNat) pcOf = some (2, 256) := by
  decide
/-- The word stored by `withFetchWord` is the first instruction after reset. -/
theorem test_withFetchWord_reset : look (step (State.reset.withFetchWord 16 0x0A41)) x1Of pcOf = some (10, 2) := by
  decide
/-- In the middle of a run it is stored at the pc. -/
theorem test_withFetchWord_running :
    look (step (State.withFetchWord ⟨p8, core p8 200⟩ 8 0x8F)) topOf pcOf = some (202, 15) := by decide
/-- S-props: a second, shorter program leaves the tail of the first. -/
theorem test_load_keeps_tail :
    (hostLoad [0x11#8] (hostLoad [0xAA#8, 0xBB#8, 0xCC#8] State.reset).2).2.mcu.mem =
      [(0, 0x11#8), (1, 0xBB#8), (2, 0xCC#8)] := by decide
/-- A byte 0x00 written over another leaves no entry. -/
theorem test_load_zero_unlists :
    (hostLoad [0x00#8] (hostLoad [0xAA#8] State.reset).2).2.mcu.mem = [] := by decide
/-- TH3. -/
theorem test_load_too_large : (hostLoad (List.replicate 257 0x10#8) State.reset).1 = .programTooLarge := by
  rw [hostLoad, programFits, List.length_replicate]; decide
/-- 60_exceptions.md R170. -/
theorem test_errorCodes :
    [ErrorKind.run .addressOutOfRange, .run .stackUnderflow, .run .stackOverflow, .programTooLarge,
      .destinationNotFound].map ErrorKind.code = [1, 2, 3, 4, 5] := by decide
/-- Scenario B (95_test_vectors.md S-BC). -/
theorem test_send_not_found :
    ((Platform.create Nat [.atHost State.reset]).send 1 9 0).1 = .destinationNotFound := by decide
/-- 60_exceptions.md R197. -/
theorem test_receipt_text : Receipt.text ⟨2, 1, "hello"⟩ = "MCU 2 received from 1: hello" := by rfl

/-- 70_reset_and_hazards.md R222: after `load [0x50]` and `run` no move of the host is left, `reset` among them; the core
turns in its loop (R232). -/
theorem test_no_reset_during_run :
    ∀ c, hostMove .run (.atHost (hostLoad [0x50#8] State.reset).2) = some (.next c) →
      c.control = .core ∧ hostMove .reset c = none ∧ hostMove .step c = none ∧ c.inspect = none := by
  intro c h
  cases h
  exact ⟨by decide, rfl, rfl, rfl⟩
/-- 60_exceptions.md R195: after the unit at 0 has been registered and has moved, the directory finds it as it is. -/
theorem test_directory_refers :
    ((Platform.create Nat [.atHost State.reset]).register 0).bind (fun n =>
      (n.hostMove 0 (.load [0x11#8])).bind fun o =>
        match o with
        | .next n' => (n'.unitOf 1).map fun c => c.state.mcu.mem
        | .fault _ => none
        | .refused _ => none) = some [(0, 0x11#8)] := by decide

/-! ## The hypotheses of the statements can be met -/

theorem witness_OperandUsedByThreeOpcodes : (0#4 : Nibble) ≠ 15#4 := by decide
theorem witness_DecodeOfEncodeIsTheLine :
    Line.wellFormed ⟨.loadimm, some 255#8⟩ = true ∧ Line.wellFormed ⟨.call 15, none⟩ = true := by decide
theorem witness_DecodedLineHasTheBytesRead :
    decode [0x5F#8, 0x00#8] = .ok (⟨.beqz 15, none⟩, [0x00#8]) ∧ decode [0x4F#8] = .error .literalMissing ∧
      decode [] = .error .noByte := by exact ⟨rfl, rfl, rfl⟩
theorem witness_DisassembleOfAssembleIsTheProgram :
    ∀ l ∈ [Line.mk .loadimm (some 64#8), Line.mk .inc none], l.wellFormed = true := by decide
theorem witness_NopsOnlyAdvance :
    ((Instr.nopF = .nop ∨ Instr.nopF = .nopD ∨ Instr.nopF = .nopE ∨ Instr.nopF = .nopF) ∧
      (core p8 255).pc.toNat ≤ 255) ∧ ((core p8 255).pc.toNat = 255 ∧ (core p8 255).runState = .running) := by decide
theorem witness_IncAddsOneModulo : (core p8 255).pc.toNat ≤ 255 := by decide
theorem witness_AddAddsModulo : (core p8 255).pc.toNat ≤ 255 := by decide
theorem witness_SubSubtractsModulo : (core p8 255).pc.toNat ≤ 255 := by decide
theorem witness_LoadimmLoadsLiteral_completes :
    p8.valid = true ∧ (core p8 254).pc.toNat < 255 ∧ (core p8 254).pc.toNat = 254 ∧
      (core p8 254).runState = .running := by decide
theorem witness_LoadimmLoadsLiteral_faults : p8.valid = true ∧ (core p8 255).pc.toNat = 255 := by decide
theorem witness_LoadReadsLowCell : p16.valid = true ∧ (core p16 255).pc.toNat ≤ 255 := by decide
theorem witness_BeqzBranchesOnZero : (core p8 255).pc.toNat ≤ 255 := by decide
theorem witness_CallPushesReturnAddress_completes :
    (core p8d1 255).pc.toNat ≤ 255 ∧ p8d1.stackDepth ≠ some (core p8d1 255).stack.length := by decide
theorem witness_CallPushesReturnAddress_faults :
    ({ core p8d1 255 with stack := [7#9] } : Mcu p8d1).pc.toNat ≤ 255 ∧
      p8d1.stackDepth = some ({ core p8d1 255 with stack := [7#9] } : Mcu p8d1).stack.length := by decide
theorem witness_RetJumpsToTop_completes :
    ({ core p8 255 with stack := [256#9] } : Mcu p8).pc.toNat ≤ 255 ∧
      ({ core p8 255 with stack := [256#9] } : Mcu p8).stack = 256#9 :: [] ∧ 256 ≤ (256#9 : BitVec p8.sw).toNat ∧
      ({ core p8 255 with stack := [256#9] } : Mcu p8).runState = .running := by decide
theorem witness_RetJumpsToTop_faults : (core p8 0).pc.toNat ≤ 255 ∧ (core p8 0).stack = [] := by decide
theorem witness_PushPushesAccumulator_completes :
    (core p8d1 255).pc.toNat ≤ 255 ∧ p8d1.stackDepth ≠ some (core p8d1 255).stack.length := by decide
theorem witness_PushPushesAccumulator_faults :
    ({ core p8d1 255 with stack := [7#9] } : Mcu p8d1).pc.toNat ≤ 255 ∧
      p8d1.stackDepth = some ({ core p8d1 255 with stack := [7#9] } : Mcu p8d1).stack.length := by decide
theorem witness_PopPopsIntoAccumulator_completes :
    ({ core p8 255 with stack := [257#9] } : Mcu p8).pc.toNat ≤ 255 ∧
      ({ core p8 255 with stack := [257#9] } : Mcu p8).stack = 257#9 :: [] := by decide
theorem witness_PopPopsIntoAccumulator_faults : (core p8 0).pc.toNat ≤ 255 ∧ (core p8 0).stack = [] := by decide
theorem witness_PrintEmitsAccumulator : (core p8 255).pc.toNat ≤ 255 := by decide
theorem witness_SenseReadsSensor_absent :
    p8.valid = true ∧ (core p8 255).pc.toNat ≤ 255 ∧ (core p8 255).sensor = .absent := by decide
theorem witness_SenseReadsSensor_reply :
    p8.valid = true ∧ ({ core p8 0 with sensor := .attached [255#8] 0 } : Mcu p8).pc.toNat ≤ 255 ∧
      ({ core p8 0 with sensor := .attached [255#8] 0 } : Mcu p8).sensor = .attached (255#8 :: []) 0 := by decide
theorem witness_SenseReadsSensor_free :
    p8.valid = true ∧ ({ core p8 0 with sensor := .attached [] 3 } : Mcu p8).pc.toNat ≤ 255 ∧
      ({ core p8 0 with sensor := .attached [] 3 } : Mcu p8).sensor = .attached [] 3 := by decide
theorem witness_ExecuteRefusedOutsideMemory : 256 ≤ (core p8 256).pc.toNat := by decide

/-- An instruction that goes on from a state not FAULTED: the hypotheses of the rules over all instructions, once
without a fault and once with one. -/
theorem witness_rules_over_all_instructions :
    (∃ t : Mcu p8, exec (.call 5) ⟨p8, core p8 255⟩ = .next ⟨p8, t⟩ ∧ (core p8 255).runState ≠ .faulted ∧
      t.runState ≠ .faulted) ∧
    (∃ t : Mcu p8, exec .ret ⟨p8, core p8 255⟩ = .next ⟨p8, t⟩ ∧ (core p8 255).runState ≠ .faulted ∧
      t.runState = .faulted) := by
  exact ⟨⟨_, rfl, by decide, by decide⟩, ⟨_, rfl, by decide, by decide⟩⟩
theorem witness_NextPcHasFourSources :
    ∃ t : Mcu p8, exec .loadimm ⟨p8, core p8 254⟩ = .next ⟨p8, t⟩ ∧ (core p8 254).runState ≠ .faulted ∧
      t.runState ≠ .faulted := by exact ⟨_, rfl, by decide, by decide⟩
theorem witness_FourInstructionsTouchTheStack :
    ∃ t : Mcu p8, exec .push ⟨p8, core p8 255⟩ = .next ⟨p8, t⟩ ∧ (core p8 255).runState ≠ .faulted ∧
      t.runState ≠ .faulted := by exact ⟨_, rfl, by decide, by decide⟩
theorem witness_RegisterWriters :
    ∃ t : Mcu p8, exec .inc ⟨p8, core p8 0⟩ = .next ⟨p8, t⟩ ∧ t.x0 ≠ (core p8 0).x0 := by exact ⟨_, rfl, by decide⟩
theorem witness_RegisterWriters_x1 :
    ∃ t : Mcu p8, exec .loadimm ⟨p8, { core p8 0 with mem := [(1, 5#8)] }⟩ = .next ⟨p8, t⟩ ∧ t.x1 ≠ (core p8 0).x1 := by
  exact ⟨_, rfl, by decide⟩
theorem witness_NoInstructionWritesMemory :
    (∃ t, exec .push ⟨p8, core p8 0⟩ = .next t) ∧ (∃ t, step ⟨p8, core p8 256⟩ = .next t) := by
  exact ⟨⟨_, rfl⟩, ⟨_, rfl⟩⟩
theorem witness_UnusedStateIsNeverRead : ∃ t : Mcu p8, exec .add ⟨p8, core p8 255⟩ = .next ⟨p8, t⟩ := by
  exact ⟨_, rfl⟩
theorem witness_EventsOnlyFromPrintAndSense :
    (∃ t : Mcu p8, exec .print ⟨p8, core p8 255⟩ = .next ⟨p8, t⟩) ∧
      (∃ t : Mcu p8, exec .sense ⟨p8, { core p8 0 with sensor := .attached [255#8] 0 }⟩ = .next ⟨p8, t⟩) ∧ p8.valid = true ∧
      (∃ t : Mcu p8, exec .inc ⟨p8, core p8 0⟩ = .next ⟨p8, t⟩) := by
  exact ⟨⟨_, rfl⟩, ⟨_, rfl⟩, by decide, ⟨_, rfl⟩⟩
theorem witness_ElevenOpcodesCannotFault :
    ∃ t : Mcu p8, exec .nopE ⟨p8, core p8 255⟩ = .next ⟨p8, t⟩ ∧ Instr.nopE ≠ .loadimm ∧ Instr.nopE ≠ .ret ∧
      Instr.nopE ≠ .pop ∧ Instr.nopE ≠ .push ∧ ∀ n, Instr.nopE ≠ .call n := by
  exact ⟨_, rfl, by decide, by decide, by decide, by decide, by decide⟩
theorem witness_AddressOutOfRangeExactly :
    ∃ t : Mcu p8, step ⟨p8, { core p8 255 with mem := [(255, 0x40#8)] }⟩ = .next ⟨p8, t⟩ ∧
      (core p8 255).runState = .running ∧ (core p8 255).fault = none := by exact ⟨_, rfl, by decide, by decide⟩
theorem witness_StackUnderflowExactly :
    ∃ t : Mcu p8, step ⟨p8, { core p8 0 with mem := [(0, 0x90#8)] }⟩ = .next ⟨p8, t⟩ ∧
      (core p8 0).runState = .running ∧ (core p8 0).fault = none := by exact ⟨_, rfl, by decide, by decide⟩
theorem witness_StackOverflowExactly :
    ∃ t : Mcu p8d1, step ⟨p8d1, { core p8d1 0 with mem := [(0, 0x80#8)], stack := [2#9] }⟩ = .next ⟨p8d1, t⟩ ∧
      (core p8d1 0).runState = .running ∧ (core p8d1 0).fault = none := by exact ⟨_, rfl, by decide, by decide⟩
theorem witness_FaultsArePrecise :
    ∃ t : Mcu p8, step ⟨p8, { core p8 255 with mem := [(255, 0x4C#8)] }⟩ = .next ⟨p8, t⟩ ∧
      (core p8 255).runState = .running ∧ t.runState = .faulted := by exact ⟨_, rfl, by decide, by decide⟩
theorem witness_StepRunsDecodedInstruction_running :
    (core p8 255).runState = .running ∧ (core p8 255).pc.toNat ≤ 255 ∧
      Memory.read (core p8 255).mem (core p8 255).pc.toNat = some 0x00#8 := by decide
theorem witness_StepRunsDecodedInstruction_waiting :
    State.reset.mcu.runState ≠ .running ∧ Memory.read State.reset.mcu.mem 0 = some 0x00#8 := by decide
theorem witness_HaltTestThenFetch :
    ((core p8 256).runState = .running ∧ 256 ≤ (core p8 256).pc.toNat) ∧
      ((core p8 255).runState = .running ∧ (core p8 255).pc.toNat ≤ 255) ∧ State.reset.mcu.runState ≠ .running := by
  decide
theorem witness_StepStartsARun : State.reset.mcu.runState ≠ .running := by decide
theorem witness_runEnds :
    RunEndsIn ⟨p8, core p8 256⟩ ⟨p8, { core p8 256 with runState := .halted }⟩ := by exact ⟨1, rfl, by decide⟩
theorem witness_RunEndsHaltedOrFaulted :
    ((core p8 256).runState = .running → (core p8 256).fault = none) ∧
      RunEndsIn ⟨p8, core p8 256⟩ ⟨p8, { core p8 256 with runState := .halted }⟩ :=
  ⟨fun _ => rfl, witness_runEnds⟩
theorem witness_RunEndsInOneState :
    RunEndsIn ⟨p8, core p8 256⟩ ⟨p8, { core p8 256 with runState := .halted }⟩ := witness_runEnds
theorem witness_StepsLeaveWhatRunLeaves :
    StepsEndIn ⟨p8, core p8 256⟩ ⟨p8, { core p8 256 with runState := .halted }⟩ :=
  ⟨0, rfl, by decide, fun k _ h1 h2 _ => absurd h1 (by omega)⟩
theorem witness_RepeatedIncCounts : (core p8 253).pc.toNat + 3 ≤ 256 := by decide
theorem witness_ArithmeticIdentities :
    (core p8 254).pc.toNat + 2 ≤ 256 ∧ p8.valid = true ∧ (core p8 253).pc.toNat + 3 ≤ 256 := by decide
theorem witness_PushThenPopRestores :
    ∃ t : Mcu p8, exec .push ⟨p8, core p8 255⟩ = .next ⟨p8, t⟩ ∧ (core p8 255).runState ≠ .faulted ∧
      t.runState ≠ .faulted ∧ ({ core p8 255 with stack := [0#9] } : Mcu p8).stack = t.stack ∧
      ({ core p8 255 with stack := [0#9] } : Mcu p8).pc.toNat ≤ 255 := by
  exact ⟨_, rfl, by decide, by decide, by decide, by decide⟩
theorem witness_CallThenRetReturns_call :
    ∃ t : Mcu p8, exec (.call 5) ⟨p8, core p8 255⟩ = .next ⟨p8, t⟩ ∧ (core p8 255).runState ≠ .faulted ∧
      t.runState ≠ .faulted ∧ ({ core p8 255 with stack := [257#9] } : Mcu p8).stack = t.stack ∧
      ({ core p8 255 with stack := [257#9] } : Mcu p8).pc.toNat ≤ 255 := by
  exact ⟨_, rfl, by decide, by decide, by decide, by decide⟩
theorem witness_CallThenRetReturns_push :
    (core p8d1 254).pc.toNat + 2 ≤ 256 ∧ p8d1.stackDepth ≠ some (core p8d1 254).stack.length := by decide
theorem witness_LoadCopiesTheProgram :
    Memory.wf State.reset.mcu.mem = true ∧ State.reset.mcu.runState ≠ .running ∧
      (List.replicate 256 0x10#8 : List Byte).length ≤ 256 := by
  exact ⟨by decide, by decide, by rw [List.length_replicate]⟩
theorem witness_LoadRefusedChangesNothing :
    (State.reset.mcu.runState ≠ .running ∧ 256 < (List.replicate 257 0x10#8 : List Byte).length) ∧
      (core p8 0).runState = .running := by exact ⟨⟨by decide, by rw [List.length_replicate]; decide⟩, by decide⟩
theorem witness_CanonicalMemoriesAreEqual :
    Memory.wf [(0, 1#8), (255, 2#8)] = true ∧
      ∀ a, Memory.read [(0, 1#8), (255, 2#8)] a = Memory.read [(0, 1#8), (255, 2#8)] a := ⟨by decide, fun _ => rfl⟩

/-- A core in the middle of a run that meets the invariant. -/
theorem core_meets_invariant (pc : Nat) (h : pc ≤ 257) : State.Inv ⟨p8, core p8 pc⟩ := by
  have hpc : (core p8 pc).pc.toNat = pc := by
    show (BitVec.ofNat 9 pc).toNat = pc
    rw [BitVec.toNat_ofNat, Nat.mod_eq_of_lt (by omega)]
  refine ⟨rfl, ⟨rfl, ?_, by simp [Mcu.fresh], ?_, by simp, by simp, ⟨rfl, rfl⟩, ?_, ?_, by simp [Mcu.fresh]⟩⟩
  · intro d hd; cases hd
  · intro f hf; cases hf
  · intro _ e he; cases he
  · intro _; rw [hpc]; exact h
theorem witness_InspectionShowsState : State.Inv ⟨p8, core p8 257⟩ := core_meets_invariant 257 (by decide)
theorem witness_InspectionShowsState_stack :
    State.Inv ⟨p8, { core p8 5 with stack := [257#9, 7#9] }⟩ := by
  have h := core_meets_invariant 5 (by decide)
  refine ⟨h.1, ⟨h.2.memWf, ?_, h.2.faultIff, (fun f hf => by cases hf), h.2.haltedPc, h.2.idlePc, h.2.unusedZero, ?_, h.2.narrowPc,
    h.2.idNonzero⟩⟩
  · intro d hd; cases hd
  · intro _; decide
/-- TB13's state after the fault. -/
theorem witness_InspectionShowsState_faulted :
    State.Inv ⟨p8, { core p8 7 with ir := 0x90#8, fault := some ⟨.stackUnderflow, 7#8, 0x9#4⟩, runState := .faulted }⟩ := by
  have h := core_meets_invariant 7 (by decide)
  refine ⟨h.1, ⟨h.2.memWf, h.2.stackFits, by decide, ?_, by decide, by decide, h.2.unusedZero, h.2.narrowStack, h.2.narrowPc,
    h.2.idNonzero⟩⟩
  intro f hf
  cases hf
  exact ⟨rfl, by decide, .inl rfl, rfl⟩
theorem witness_StepKeepsInvariant : State.Inv ⟨p8, core p8 255⟩ ∧ ∃ t, step ⟨p8, core p8 255⟩ = .next t :=
  ⟨core_meets_invariant 255 (by decide), _, rfl⟩
theorem witness_ReachableStatesMeetInvariant : Reachable (.atHost ⟨p8, Mcu.fresh p8 1#8 .absent⟩) :=
  .fresh p8 1#8 .absent (by decide) (by decide)

/-- Platforms of two units: both waiting with the first registered, and the first RUNNING at its host's control or in a
`run`. -/
abbrev waiting2 : Platform Nat := ⟨[.atHost State.reset, .atHost State.reset], ⟨[(1, 0)]⟩, []⟩
abbrev stepping2 : Platform Nat := waiting2.setUnit 0 (.atHost ⟨p8, core p8 5⟩)
abbrev running2 : Platform Nat := waiting2.setUnit 0 ⟨.core, ⟨p8, core p8 5⟩⟩
theorem witness_SendDeliversOrReports :
    (waiting2.hostHasControl = true ∧ waiting2.network.find 2 = none) ∧
      (waiting2.unitOf 1 = some (.atHost State.reset) ∧ State.reset.mcu.runState ≠ .running) ∧
      (stepping2.hostHasControl = true ∧ stepping2.unitOf 1 = some (.atHost ⟨p8, core p8 5⟩) ∧
        (core p8 5).runState = .running) ∧ running2.hostHasControl = false := by decide
theorem witness_RegisterLastWriteWins :
    (waiting2.network.directory.map Prod.fst).Nodup ∧
      (waiting2.hostHasControl = true ∧ waiting2.units[1]? = some (.atHost State.reset)) ∧ waiting2.units[2]? = none ∧
      ((running2.network.directory.map Prod.fst).Nodup ∧ running2.hostHasControl = false) := by decide
theorem witness_BroadcastDeliversOnceToEach :
    (waiting2.network.directory.map Prod.fst).Nodup ∧
      (∀ e ∈ waiting2.network.directory,
        ∃ c, waiting2.units[e.2]? = some c ∧ c.state.mcu.id.toNat = e.1 ∧ c.state.mcu.runState ≠ .running) ∧
      waiting2.hostHasControl = true ∧ [1].Perm (waiting2.network.recipients 7) ∧
      ¬ [1, 1].Perm (waiting2.network.recipients 7) := by
  refine ⟨by decide, ?_, by decide, by decide, by decide⟩
  intro e he
  obtain rfl := List.mem_singleton.mp he
  exact ⟨.atHost State.reset, rfl, by decide, by decide⟩
/-- The unit at 0 is no registered unit, and in a `run`. -/
theorem witness_BroadcastDeliversOnceToEach_run :
    ∃ n : Platform Nat, (n.network.directory.map Prod.fst).Nodup ∧ n.network.directory = [] ∧
      n.hostHasControl = false := ⟨.create Nat [⟨.core, ⟨p8, core p8 5⟩⟩], by decide, rfl, by decide⟩
theorem witness_HostAndCoreMovesKeepInvariant :
    (p8.valid = true ∧ (1#8 : BitVec p8.idWidth).toNat ≠ 0) ∧
      ((Session.atHost ⟨p8, core p8 257⟩).Inv ∧ ∃ d, hostMove .run (.atHost ⟨p8, core p8 257⟩) = some (.next d)) ∧
      (Session.Inv ⟨.core, ⟨p8, core p8 255⟩⟩ ∧ ∃ d, coreMove ⟨.core, ⟨p8, core p8 255⟩⟩ = some (.next d)) :=
  ⟨by decide, ⟨⟨core_meets_invariant 257 (by decide), fun _ => rfl⟩, _, rfl⟩,
    ⟨core_meets_invariant 255 (by decide), fun _ => rfl⟩, _, rfl⟩
theorem witness_HostHasNoMoveDuringRun :
    ((⟨.core, ⟨p8, core p8 256⟩⟩ : Session).control = .core ∧ (core p8 256).runState = .running) ∧
      (Session.atHost ⟨p8, core p8 256⟩).control = .host := by decide
theorem witness_RunReturnsAtItsEnd :
    RunEndsIn ⟨p8, core p8 256⟩ ⟨p8, { core p8 256 with runState := .halted }⟩ ∧
      ∃ c k, hostMove .run (.atHost ⟨p8, core p8 256⟩) = some (.next c) ∧
        coreMoves k c = .next (.atHost ⟨p8, { core p8 256 with runState := .halted }⟩) :=
  ⟨witness_runEnds, _, 1, rfl, rfl⟩
theorem witness_UnitsActThroughReferences :
    (waiting2.hostHasControl = true ∧ waiting2.units[1]? = some (.atHost State.reset)) ∧
      (running2.units[0]? = some ⟨.core, ⟨p8, core p8 5⟩⟩ ∧ running2.hostHasControl = false) := by decide

/-- Two units, the first registered and in a `run`, the second between two `step`s. -/
abbrev mixed2 : Platform Nat := ⟨[⟨.core, ⟨p8, core p8 5⟩⟩, .atHost ⟨p8, core p8 5⟩], ⟨[(1, 0)]⟩, []⟩
theorem mixed2_meets_invariant : mixed2.Inv := by
  refine ⟨?_, by decide, ?_, ?_⟩
  · intro c hc
    have h : c = ⟨.core, ⟨p8, core p8 5⟩⟩ ∨ c = .atHost ⟨p8, core p8 5⟩ := by simpa using hc
    rcases h with rfl | rfl <;> exact ⟨core_meets_invariant 5 (by decide), fun _ => rfl⟩
  · intro e he
    obtain rfl := List.mem_singleton.mp he
    exact ⟨_, rfl, rfl⟩
  · intro i j c d hi hj hc hd
    match i, j with
    | 0, 0 => rfl
    | 0, 1 => cases hj; cases hd
    | 1, _ => cases hi; cases hc
    | _ + 2, _ => cases hi
    | 0, _ + 2 => cases hj
theorem witness_PlatformKeepsInvariant :
    (∀ c ∈ [Session.atHost ⟨p8, core p8 5⟩], c.Inv ∧ c.control = .host) ∧ mixed2.Inv ∧
      (∃ n', mixed2.coreMove 0 = some (.next n')) ∧ ∃ n', (mixed2.send 1 1 0).2 = n' := by
  refine ⟨?_, mixed2_meets_invariant, ⟨_, rfl⟩, _, rfl⟩
  intro c hc
  obtain rfl := List.mem_singleton.mp hc
  exact ⟨⟨core_meets_invariant 5 (by decide), fun _ => rfl⟩, rfl⟩

end Sys2Proof.Machine.Tests
end

section
/-! The program counter controller (10_state.md R26): an instruction either takes a fault, which keeps the pc, or sets
the pc from the one source of its row. -/

namespace Sys2Proof.Machine

variable {p : Params}

/-- An instruction takes a fault, or it leaves `run_state` alone (60_exceptions.md R175). -/
theorem effect_raises_or_keeps_runState (i : Instr) (m : Mcu p) :
    (∃ kind opcode, effect i m = m.raise kind opcode) ∨ (effect i m).runState = m.runState := by
  cases i with
  | loadimm =>
    by_cases h : m.pc.toNat = 255
    · exact .inl ⟨_, _, if_pos h⟩
    · exact .inr (by simp [effect, h])
  | call target =>
    by_cases h : p.stackDepth = some m.stack.length
    · exact .inl ⟨_, _, if_pos h⟩
    · exact .inr (by simp [effect, h])
  | push =>
    by_cases h : p.stackDepth = some m.stack.length
    · exact .inl ⟨_, _, if_pos h⟩
    · exact .inr (by simp [effect, h])
  | ret =>
    cases h : m.stack with
    | nil => exact .inl ⟨.stackUnderflow, 0x9#4, by simp [effect, h]⟩
    | cons e rest => exact .inr (by simp [effect, h])
  | pop =>
    cases h : m.stack with
    | nil => exact .inl ⟨.stackUnderflow, 0xB#4, by simp [effect, h]⟩
    | cons e rest => exact .inr (by simp [effect, h])
  | beqz target =>
    right
    by_cases h : m.x0 = 0#p.xlen <;> simp [effect, h]
  | nop | inc | print | add | load _ | sub | sense | nopD | nopE | nopF => exact .inr rfl

/-- A faulting instruction keeps the pc. -/
theorem effect_pc_of_faulted (i : Instr) (m : Mcu p) (hrun : m.runState ≠ .faulted)
    (hfault : (effect i m).runState = .faulted) : (effect i m).pc = m.pc := by
  obtain ⟨kind, opcode, hraise⟩ | hkeep := effect_raises_or_keeps_runState i m
  · rw [hraise, raise_pc]
  · exact absurd (hkeep ▸ hfault) hrun

/-! ### The pc after an instruction that need not be sequential -/

theorem effect_loadimm_pc (m : Mcu p) (hok : (effect .loadimm m).runState ≠ .faulted) :
    (effect .loadimm m).pc = m.pc + 2#p.sw := by
  by_cases h : m.pc.toNat = 255
  · simp [effect, h] at hok
  · simp [effect, h]

theorem effect_beqz_pc (target : Nibble) (m : Mcu p) :
    (effect (.beqz target) m).pc = if m.x0.toNat = 0 then target.setWidth p.sw else m.pc + 1#p.sw := by
  have hzero : m.x0 = 0#p.xlen ↔ m.x0.toNat = 0 := by simp [BitVec.toNat_eq]
  by_cases h : m.x0.toNat = 0 <;> simp [effect, hzero, h]

theorem effect_call_pc (target : Nibble) (m : Mcu p) (hok : (effect (.call target) m).runState ≠ .faulted) :
    (effect (.call target) m).pc = target.setWidth p.sw := by
  by_cases h : p.stackDepth = some m.stack.length
  · simp [effect, h] at hok
  · simp [effect, h]

/-- RET takes the pc from the popped entry. -/
theorem effect_ret_pc (m : Mcu p) (hok : (effect .ret m).runState ≠ .faulted) :
    ∃ rest, m.stack = (effect .ret m).pc :: rest := by
  cases h : m.stack with
  | nil => simp [effect, h] at hok
  | cons e rest => exact ⟨rest, by simp [effect, h]⟩

theorem effect_push_pc (m : Mcu p) (hok : (effect .push m).runState ≠ .faulted) :
    (effect .push m).pc = m.pc + 1#p.sw := by
  by_cases h : p.stackDepth = some m.stack.length
  · simp [effect, h] at hok
  · simp [effect, h]

theorem effect_pop_pc (m : Mcu p) (hok : (effect .pop m).runState ≠ .faulted) :
    (effect .pop m).pc = m.pc + 1#p.sw := by
  cases h : m.stack with
  | nil => simp [effect, h] at hok
  | cons e rest => simp [effect, h]

/-- Settles O21: the core after an instruction is its `effect`; a fault keeps the pc, and otherwise each row's source
does not wrap, since an instruction that goes on stands inside memory. -/
theorem nextPcHasFourSources : Obligations.NextPcHasFourSources := by
  unfold Obligations.NextPcHasFourSources
  intro i p m t hexec hrun
  obtain ⟨hpc, ht⟩ := exec_eq_next i m _ hexec
  obtain rfl : t = effect i m := by simpa using ht
  refine ⟨effect_pc_of_faulted i m hrun, fun hok => ?_⟩
  have hsequential : (m.pc + 1#p.sw).toNat = m.pc.toNat + 1 := pcPlus m 1 (by decide) hpc
  have hskip : (m.pc + 2#p.sw).toNat = m.pc.toNat + 2 := pcPlus m 2 (by decide) hpc
  cases i with
  | loadimm => simpa only [effect_loadimm_pc m hok] using hskip
  | beqz target => simp only [effect_beqz_pc, apply_ite BitVec.toNat, targetValue, hsequential]
  | call target => simp only [effect_call_pc target m hok, targetValue]
  | ret => exact effect_ret_pc m hok
  | push => simpa only [effect_push_pc m hok] using hsequential
  | pop => simpa only [effect_pop_pc m hok] using hsequential
  | nop | inc | print | add | load _ | sub | sense | nopD | nopE | nopF => exact hsequential

end Sys2Proof.Machine
end

section
/-! The opcode map read as a table (30_encoding.md R84): the two fields of `op ++ n`, the row they select, and the length
that the row's opcode fixes. -/

namespace Sys2Proof

@[simp] theorem opcodeOf_append (op n : Nibble) : opcodeOf (op ++ n) = op :=
  BitVec.extractLsb'_append_eq_left

@[simp] theorem operandOf_append (op n : Nibble) : operandOf (op ++ n) = n :=
  BitVec.extractLsb'_append_eq_right

/-- The two nibbles of a byte select its row and nothing else does. -/
theorem decodeByte_append (op n : Nibble) : decodeByte (op ++ n) = selectInstr op n := by
  rw [decodeByte, opcodeOf_append, operandOf_append]

/-- The row selected carries the opcode that selected it; the default row is left for 0xF alone (R83). -/
@[simp] theorem selectInstr_opcode (op n : Nibble) : (selectInstr op n).opcode = op := by
  unfold selectInstr
  split
  case h_16 =>
    show 0xF#4 = op
    revert op
    decide
  all_goals rfl

@[simp] theorem decodeByte_opcode (b : Byte) : (decodeByte b).opcode = opcodeOf b :=
  selectInstr_opcode (opcodeOf b) (operandOf b)

/-- R82: an instruction fetches two bytes exactly when it is LOADIMM's row, and one otherwise. -/
theorem Instr.length_eq_ite (i : Instr) : i.length = if i.opcode = 0x4#4 then 2 else 1 := by
  cases i <;> rfl

end Sys2Proof

namespace Sys2Proof.Laws

/-- Settles O2: the rows are those of `selectInstr`, and the length follows from the opcode of the decoded row. -/
theorem decoderFollowsOpcodeMap : Obligations.DecoderFollowsOpcodeMap := by
  unfold Obligations.DecoderFollowsOpcodeMap
  intro n
  simp only [decodeByte_append]
  refine ⟨rfl, rfl, rfl, rfl, rfl, rfl, rfl, rfl, rfl, rfl, rfl, rfl, rfl, rfl, rfl, rfl, fun b => ?_⟩
  rw [Instr.length_eq_ite, decodeByte_opcode]
  by_cases h : opcodeOf b = 0x4#4 <;> simp [h]

end Sys2Proof.Laws
end

section
/-! The arithmetic instructions on the accumulator (40_arithmetic.md): each writes one value to `x[0]` and advances, so
they share the frame, and a statement about one is left with the arithmetic of its value. -/

namespace Sys2Proof.Machine

variable {p : Params}

/-- An instruction whose effect is to write `v` to `x[0]` and advance goes on from inside memory with `v` in `x[0]`, the
next pc not wrapped (10_state.md R27), and all other state as it was. -/
theorem exec_writes_x0_and_advances {i : Instr} {m : Mcu p} {v : BitVec p.xlen}
    (heffect : effect i m = (m.setX0 v).goSequential) (hpc : m.pc.toNat ≤ 255) :
    ∃ t : Mcu p, exec i ⟨p, m⟩ = .next ⟨p, t⟩ ∧ t.x0 = v ∧ t.pc.toNat = m.pc.toNat + 1 ∧
      t = { m with x0 := t.x0, pc := t.pc } ∧ ∀ a, Memory.read t.mem a = Memory.read m.mem a := by
  have hinside : m.pc.toNat < memSize := Nat.lt_succ_of_le hpc
  have hexec : exec i ⟨p, m⟩ = .next ⟨p, (m.setX0 v).goSequential⟩ := by rw [exec_eq_effect i m hinside, heffect]
  exact ⟨_, hexec, rfl, pcPlus m 1 (by decide) hinside, rfl, fun _ => rfl⟩

/-- Settles O8: opcode 1 selects INC whatever the nibble, and INC writes the register sum `x[0] + 1`. -/
theorem incAddsOneModulo : Obligations.IncAddsOneModulo := by
  unfold Obligations.IncAddsOneModulo
  refine ⟨decodeByte_append 0x1#4, fun p m hpc => ?_⟩
  obtain ⟨t, hexec, hx0, hframe⟩ := exec_writes_x0_and_advances (i := .inc) (m := m) rfl hpc
  have hsum : t.x0.toNat = (m.x0.toNat + 1) % 2 ^ p.xlen := by
    rw [hx0, BitVec.toNat_add, BitVec.toNat_ofNat, Nat.add_mod_mod]
  exact ⟨t, hexec, hsum, hframe⟩

/-- Settles O9: opcode 3 selects ADD whatever the nibble, and ADD writes the register sum `x[0] + x[1]`. -/
theorem addAddsModulo : Obligations.AddAddsModulo := by
  unfold Obligations.AddAddsModulo
  refine ⟨decodeByte_append 0x3#4, fun p m hpc => ?_⟩
  obtain ⟨t, hexec, hx0, hframe⟩ := exec_writes_x0_and_advances (i := .add) (m := m) rfl hpc
  have hsum : t.x0.toNat = (m.x0.toNat + m.x1.toNat) % 2 ^ p.xlen := by rw [hx0, BitVec.toNat_add]
  exact ⟨t, hexec, hsum, hframe⟩

end Sys2Proof.Machine
end

section
/-! The two instructions that read memory besides the fetch (41_memory_read.md): LOADIMM's literal with its bounds check,
and LOAD's low cell. -/

namespace Sys2Proof.Machine

variable {p : Params}

/-- LOADIMM below the last cell passes the check of R53: it writes the literal and skips both of its bytes. -/
theorem effect_loadimm_of_lt (m : Mcu p) (h : m.pc.toNat < 255) :
    effect .loadimm m = (m.setX1 (byteToReg p (Memory.lookup m.mem (m.pc.toNat + 1)))).goSkip :=
  if_neg (Nat.ne_of_lt h)

/-- LOADIMM in the last cell takes the fault before it reads or writes. -/
theorem effect_loadimm_of_eq (m : Mcu p) (h : m.pc.toNat = 255) :
    effect .loadimm m = m.raise .addressOutOfRange 0x4#4 :=
  if_pos h

/-- A fault taken in the last cell records 255 as its pc. -/
theorem raise_at_last_cell (m : Mcu p) (kind : FaultKind) (opcode : Nibble) (h : m.pc.toNat = 255) :
    m.raise kind opcode = { m with fault := some ⟨kind, 255#8, opcode⟩, runState := .faulted } := by
  have hpc : m.pc.setWidth 8 = 255#8 := BitVec.eq_of_toNat_eq (by rw [raise_fpc m (by rw [h]; decide), h]; rfl)
  rw [Mcu.raise, hpc]

/-- In a run, a step past the end of memory ends the run and changes nothing else (10_state.md R28). -/
theorem step_halts_of_running (m : Mcu p) (hrun : m.runState = .running) (hpc : memSize ≤ m.pc.toNat) :
    step ⟨p, m⟩ = .next ⟨p, m.halt⟩ := by
  rw [step_running m hrun, stepInstruction_halts m hpc]

/-- Settles O11: below 255 the literal's cell exists, and from 254 the skip leaves memory; at 255 the check comes first. -/
theorem loadimmLoadsLiteral : Obligations.LoadimmLoadsLiteral := by
  unfold Obligations.LoadimmLoadsLiteral
  refine ⟨decodeByte_append 0x4#4, fun p m hvalid => ⟨fun hlt => ?_, fun hlast => ?_⟩⟩
  · have hinside : m.pc.toNat < memSize := Nat.lt_succ_of_lt hlt
    have hskip : m.goSkip.pc.toNat = m.pc.toNat + 2 := pcPlus m 2 (by decide) hinside
    refine ⟨(m.setX1 (byteToReg p (Memory.lookup m.mem (m.pc.toNat + 1)))).goSkip, _, ?_,
      read_of_lt m.mem _ (Nat.succ_lt_succ hlt), byteToReg_toNat p hvalid _, hskip, rfl, fun h254 hrun => ?_,
      fun _ => rfl⟩
    · rw [exec_eq_effect _ m hinside, effect_loadimm_of_lt m hlt]
    · have hpast : memSize ≤ m.goSkip.pc.toNat := by rw [hskip, h254]
      exact step_halts_of_running _ hrun hpast
  · rw [exec_eq_effect _ m (by rw [hlast]; decide), effect_loadimm_of_eq m hlast, raise_at_last_cell m _ _ hlast]

/-- Settles O12: opcode 6 hands its nibble to LOAD, whose cell always exists and whose value goes to `x[0]`. -/
theorem loadReadsLowCell : Obligations.LoadReadsLowCell := by
  unfold Obligations.LoadReadsLowCell
  refine ⟨decodeByte_append 0x6#4, fun addr p m hvalid hpc => ?_⟩
  obtain ⟨t, hexec, hx0, hframe⟩ := exec_writes_x0_and_advances (i := .load addr) (m := m) rfl hpc
  have hread : Memory.read m.mem addr.toNat = some (Memory.lookup m.mem addr.toNat) :=
    read_of_lt m.mem _ (cellOfOperand_eq addr ▸ cellOfOperand_lt addr)
  have hvalue : t.x0.toNat = (Memory.lookup m.mem addr.toNat).toNat := by rw [hx0, byteToReg_toNat p hvalid]
  exact ⟨t, _, hexec, hread, hvalue, hframe⟩

end Sys2Proof.Machine
end

section
/-! The conditional branch (42_control_transfer.md R130): BEQZ chooses the next pc and touches nothing else. -/

namespace Sys2Proof.Machine

variable {p : Params}

/-- Taken or not, BEQZ writes the pc alone. -/
theorem effect_beqz_frame (target : Nibble) (m : Mcu p) :
    effect (.beqz target) m = { m with pc := (effect (.beqz target) m).pc } := by
  by_cases hzero : m.x0 = 0#p.xlen
  · have htaken : effect (.beqz target) m = m.goTarget target := if_pos hzero
    rw [htaken]
    rfl
  · have hfallthrough : effect (.beqz target) m = m.goSequential := if_neg hzero
    rw [hfallthrough]
    rfl

/-- Inside memory the pc after BEQZ is its absolute target or the next address, neither of them wrapped. -/
theorem effect_beqz_pc_toNat (target : Nibble) (m : Mcu p) (h : m.pc.toNat < memSize) :
    (effect (.beqz target) m).pc.toNat = if m.x0.toNat = 0 then target.toNat else m.pc.toNat + 1 := by
  have hsequential : (m.pc + 1#p.sw).toNat = m.pc.toNat + 1 := pcPlus m 1 (by decide) h
  rw [effect_beqz_pc, apply_ite BitVec.toNat, targetValue, hsequential]

/-- Settles O13: opcode 5 hands its nibble to BEQZ, whose effect is a choice of the next pc; memory is in its frame. -/
theorem beqzBranchesOnZero : Obligations.BeqzBranchesOnZero := by
  unfold Obligations.BeqzBranchesOnZero
  refine ⟨decodeByte_append 0x5#4, fun target p m hpc => ?_⟩
  have hinside : m.pc.toNat < memSize := Nat.lt_succ_of_le hpc
  have hframe := effect_beqz_frame target m
  have hmem : (effect (.beqz target) m).mem = m.mem := by rw [hframe]
  exact ⟨effect (.beqz target) m, exec_eq_effect _ m hinside, effect_beqz_pc_toNat target m hinside, hframe,
    fun a => by rw [hmem]⟩

end Sys2Proof.Machine
end

section
/-! NOP and the reserved opcodes 0xD, 0xE, 0xF (45_nop_reserved.md): four rows with the one effect of advancing. -/

namespace Sys2Proof.Machine

variable {p : Params}

/-- Each of the four rows has the effect R160 writes, `pc <- pc + 1`. -/
theorem effect_nops {i : Instr} (h : i = .nop ∨ i = .nopD ∨ i = .nopE ∨ i = .nopF) (m : Mcu p) :
    effect i m = m.goSequential := by
  rcases h with rfl | rfl | rfl | rfl <;> rfl

/-- Settles O7: the decoder ignores the nibble, the four rows only advance, and 255 + 1 is past the end of memory. -/
theorem nopsOnlyAdvance : Obligations.NopsOnlyAdvance := by
  unfold Obligations.NopsOnlyAdvance
  refine ⟨fun n => ?_, fun i p m hnop hpc => ?_⟩
  · simp only [decodeByte_append]
    exact ⟨rfl, rfl, rfl, rfl⟩
  · have hinside : m.pc.toNat < memSize := Nat.lt_succ_of_le hpc
    have hexec : exec i ⟨p, m⟩ = .next ⟨p, m.goSequential⟩ := by rw [exec_eq_effect i m hinside, effect_nops hnop]
    have hnext : m.goSequential.pc.toNat = m.pc.toNat + 1 := pcPlus m 1 (by decide) hinside
    refine ⟨m.goSequential, hexec, hnext, rfl, fun hlast hrun => ?_, fun _ => rfl⟩
    have hpast : memSize ≤ m.goSequential.pc.toNat := by rw [hnext, hlast]
    exact step_halts_of_running _ hrun hpast

end Sys2Proof.Machine
end

section
/-! What raises a fault and nothing else (60_exceptions.md R171 to R173): `Mcu.FaultAt` is not only what the record of a
fault says but also its cause, so each kind's statement is that predicate read at its kind. -/

namespace Sys2Proof.Machine

variable {p : Params}

/-- The causes side by side; the opcode is that of the latched byte. -/
theorem faultAt_iff (m : Mcu p) (f : FaultRecord) :
    m.FaultAt f ↔ f.fpc.toNat = m.pc.toNat ∧ f.fopcode = opcodeOf m.ir ∧
      ((f.kind = .addressOutOfRange ∧ opcodeOf m.ir = 0x4#4 ∧ m.pc.toNat = 255) ∨
        (f.kind = .stackUnderflow ∧ (opcodeOf m.ir = 0x9#4 ∨ opcodeOf m.ir = 0xB#4) ∧ m.stack = []) ∨
        (f.kind = .stackOverflow ∧ (opcodeOf m.ir = 0x8#4 ∨ opcodeOf m.ir = 0xA#4) ∧
          p.stackDepth = some m.stack.length)) := by
  obtain ⟨kind, fpc, fopcode⟩ := f
  refine and_congr_right fun _ => and_congr_right fun hop => ?_
  obtain rfl : fopcode = opcodeOf m.ir := hop
  cases kind <;> simp

/-- Where a fault is raised there is one record for it: the opcode tells the kinds apart. -/
theorem faultAt_unique {m : Mcu p} {f g : FaultRecord} (hf : m.FaultAt f) (hg : m.FaultAt g) : f = g := by
  obtain ⟨fkind, ffpc, ffop⟩ := f
  obtain ⟨gkind, gfpc, gfop⟩ := g
  obtain ⟨hfpc, hfop, hfcause⟩ := (faultAt_iff m _).mp hf
  obtain ⟨hgpc, hgop, hgcause⟩ := (faultAt_iff m _).mp hg
  obtain rfl : ffpc = gfpc := BitVec.eq_of_toNat_eq (hfpc.trans hgpc.symm)
  obtain rfl : ffop = gfop := hfop.trans hgop.symm
  have hkind : fkind = gkind := by grind
  rw [hkind]

/-- Inside memory the latched instruction takes the fault whose cause is present, and where none is it leaves
`run_state` alone. -/
theorem effect_raises_faultAt_or_keeps (i : Instr) (m : Mcu p) (hop : i.opcode = opcodeOf m.ir)
    (hpc : m.pc.toNat < memSize) :
    (∃ f, m.FaultAt f ∧ effect i m = m.raise f.kind f.fopcode) ∨
      ((∀ f, ¬ m.FaultAt f) ∧ (effect i m).runState = m.runState) := by
  have hfpc := raise_fpc m hpc
  cases i with
  | loadimm =>
    by_cases h : m.pc.toNat = 255
    · exact .inl ⟨⟨.addressOutOfRange, m.pc.setWidth 8, 0x4#4⟩, ⟨hfpc, hop, rfl, h⟩,
        effect_loadimm_of_eq m h⟩
    · exact .inr (by simp [faultAt_iff, ← hop, Instr.opcode, effect, h])
  | ret =>
    cases h : m.stack with
    | nil =>
      exact .inl ⟨⟨.stackUnderflow, m.pc.setWidth 8, 0x9#4⟩, ⟨hfpc, hop, .inl rfl, h⟩, by simp [effect, h]⟩
    | cons e rest => exact .inr (by simp [faultAt_iff, ← hop, Instr.opcode, effect, h])
  | pop =>
    cases h : m.stack with
    | nil =>
      exact .inl ⟨⟨.stackUnderflow, m.pc.setWidth 8, 0xB#4⟩, ⟨hfpc, hop, .inr rfl, h⟩, by simp [effect, h]⟩
    | cons e rest => exact .inr (by simp [faultAt_iff, ← hop, Instr.opcode, effect, h])
  | call target =>
    by_cases h : p.stackDepth = some m.stack.length
    · exact .inl ⟨⟨.stackOverflow, m.pc.setWidth 8, 0x8#4⟩, ⟨hfpc, hop, .inl rfl, h⟩, if_pos h⟩
    · exact .inr (by simp [faultAt_iff, ← hop, Instr.opcode, effect, h])
  | push =>
    by_cases h : p.stackDepth = some m.stack.length
    · exact .inl ⟨⟨.stackOverflow, m.pc.setWidth 8, 0xA#4⟩, ⟨hfpc, hop, .inr rfl, h⟩, if_pos h⟩
    · exact .inr (by simp [faultAt_iff, ← hop, Instr.opcode, effect, h])
  | beqz target =>
    have hkeeps : (effect (.beqz target) m).runState = m.runState := by rw [effect_beqz_frame]
    exact .inr ⟨by simp [faultAt_iff, ← hop, Instr.opcode], hkeeps⟩
  | nop | inc | print | add | load _ | sub | sense | nopD | nopE | nopF =>
    exact .inr ⟨by simp [faultAt_iff, ← hop, Instr.opcode], rfl⟩

/-- A cause is present inside memory only, since a record has room for no other pc. -/
theorem lt_memSize_of_faultAt {m : Mcu p} {f : FaultRecord} (hf : m.FaultAt f) : m.pc.toNat < memSize := by
  obtain ⟨hfpc, _⟩ := hf
  exact hfpc ▸ f.fpc.isLt

/-- The record of a cause holds the pc as `Mcu.raise` writes it. -/
theorem fpc_of_faultAt {m : Mcu p} {f : FaultRecord} (hf : m.FaultAt f) : m.pc.setWidth 8 = f.fpc := by
  have ⟨hfpc, _⟩ := hf
  exact BitVec.eq_of_toNat_eq ((raise_fpc m (lt_memSize_of_faultAt hf)).trans hfpc.symm)

/-- A core that is not faulted faults with the record `f` exactly when the cause of `f` is present. -/
theorem effect_faults_iff_faultAt (i : Instr) (m : Mcu p) (hop : i.opcode = opcodeOf m.ir)
    (hpc : m.pc.toNat < memSize) (hrun : m.runState ≠ .faulted) (f : FaultRecord) :
    (effect i m).runState = .faulted ∧ (effect i m).fault = some f ↔ m.FaultAt f := by
  obtain ⟨g, hg, hraise⟩ | ⟨hnone, hkeeps⟩ := effect_raises_faultAt_or_keeps i m hop hpc
  · rw [hraise, raise_fault, fpc_of_faultAt hg]
    constructor
    · rintro ⟨_, hrecord⟩
      cases hrecord
      exact hg
    · intro hf
      exact ⟨rfl, congrArg some (faultAt_unique hg hf)⟩
  · rw [hkeeps]
    exact ⟨fun ⟨hfaulted, _⟩ => absurd hfaulted hrun, fun hf => absurd hf (hnone f)⟩

/-- A step of a run faults with the record `f` exactly when it fetches a byte that is the cause of `f`. -/
theorem step_faults_iff_faultAt {m t : Mcu p} (hrun : m.runState = .running) (hstep : step ⟨p, m⟩ = .next ⟨p, t⟩)
    (f : FaultRecord) :
    t.runState = .faulted ∧ t.fault = some f ↔
      ∃ b, Memory.read m.mem m.pc.toNat = some b ∧ (m.latch b).FaultAt f := by
  by_cases hpc : m.pc.toNat < memSize
  · rw [step_running m hrun, stepInstruction_executes m hpc] at hstep
    cases hstep
    have hlatched := effect_faults_iff_faultAt (decodeByte (Memory.lookup m.mem m.pc.toNat))
      (m.latch (Memory.lookup m.mem m.pc.toNat)) (decodeByte_opcode _) hpc (by simp [hrun]) f
    rw [hlatched, read_of_lt m.mem _ hpc]
    simp
  · rw [step_halts_of_running m hrun (Nat.not_lt.mp hpc)] at hstep
    cases hstep
    simp [read_of_ge m.mem _ (Nat.not_lt.mp hpc)]

/-- A cause of a kind fixes the rest of its record. -/
theorem exists_faultAt_kind_iff (m : Mcu p) (kind : FaultKind) :
    (∃ f, m.FaultAt f ∧ f.kind = kind) ↔ m.FaultAt ⟨kind, m.pc.setWidth 8, opcodeOf m.ir⟩ := by
  constructor
  · rintro ⟨⟨_, fpc, fopcode⟩, hf, rfl⟩
    have ⟨_, hop, _⟩ := hf
    rwa [fpc_of_faultAt hf, ← hop]
  · exact fun hf => ⟨_, hf, rfl⟩

/-- A step of a run faults with the kind `kind` exactly when it fetches a byte that causes it. -/
theorem step_faults_with_kind_iff {m t : Mcu p} (hrun : m.runState = .running)
    (hstep : step ⟨p, m⟩ = .next ⟨p, t⟩) (kind : FaultKind) :
    (t.runState = .faulted ∧ ∃ f, t.fault = some f ∧ f.kind = kind) ↔
      ∃ b, Memory.read m.mem m.pc.toNat = some b ∧ (m.latch b).FaultAt ⟨kind, m.pc.setWidth 8, opcodeOf b⟩ := by
  calc (t.runState = .faulted ∧ ∃ f, t.fault = some f ∧ f.kind = kind)
      ↔ ∃ f, (t.runState = .faulted ∧ t.fault = some f) ∧ f.kind = kind := by
        simp only [and_assoc, exists_and_left]
    _ ↔ ∃ f, (∃ b, Memory.read m.mem m.pc.toNat = some b ∧ (m.latch b).FaultAt f) ∧ f.kind = kind := by
        simp only [step_faults_iff_faultAt hrun hstep]
    _ ↔ ∃ b, Memory.read m.mem m.pc.toNat = some b ∧ ∃ f, (m.latch b).FaultAt f ∧ f.kind = kind :=
        ⟨fun ⟨f, ⟨b, hread, hf⟩, hkind⟩ => ⟨b, hread, f, hf, hkind⟩,
          fun ⟨b, hread, f, hf, hkind⟩ => ⟨f, ⟨b, hread, hf⟩, hkind⟩⟩
    _ ↔ _ := by simp only [exists_faultAt_kind_iff, latch_pc, latch_ir]

/-- A byte fetched stands inside memory. -/
theorem lt_memSize_of_read {mem : Memory} {a : Nat} {b : Byte} (h : Memory.read mem a = some b) : a < memSize :=
  Nat.lt_of_not_le fun hge => by simp [read_of_ge mem a hge] at h

/-- Settles O28: the cause of AddressOutOfRange is a latched opcode 4 at pc 255, and the byte latched is the one at
the pc. -/
theorem addressOutOfRangeExactly : Obligations.AddressOutOfRangeExactly := by
  unfold Obligations.AddressOutOfRangeExactly
  intro p m t hrun _ hstep
  rw [step_faults_with_kind_iff hrun hstep]
  constructor
  · rintro ⟨b, hread, _, _, hop, hlast⟩
    have hpc : m.pc.toNat = 255 := hlast
    exact ⟨hpc, b, hpc ▸ hread, hop⟩
  · rintro ⟨hpc, b, hread, hop⟩
    have hread' : Memory.read m.mem m.pc.toNat = some b := hpc ▸ hread
    exact ⟨b, hread', raise_fpc m (lt_memSize_of_read hread'), rfl, hop, hpc⟩

/-- Settles O29: the cause of StackUnderflow is a latched opcode 9 or 0xB with an empty stack. -/
theorem stackUnderflowExactly : Obligations.StackUnderflowExactly := by
  unfold Obligations.StackUnderflowExactly
  intro p m t hrun _ hstep
  rw [step_faults_with_kind_iff hrun hstep]
  constructor
  · rintro ⟨b, hread, _, _, hop, hempty⟩
    exact ⟨hempty, b, hread, hop⟩
  · rintro ⟨hempty, b, hread, hop⟩
    exact ⟨b, hread, raise_fpc m (lt_memSize_of_read hread), rfl, hop, hempty⟩

end Sys2Proof.Machine
end

section
/-! Program lines and their bytes (30_encoding.md R80 to R82, R90): what the decoder answers is one condition on the
bytes and the line, so each direction of the round trip is a reading of it. -/

namespace Sys2Proof

/-- The two fields of a byte are the whole of it (R80). -/
theorem opcodeOf_append_operandOf (b : Byte) : opcodeOf b ++ operandOf b = b := by
  unfold opcodeOf operandOf
  ext i hi
  grind

@[simp] theorem decodeByte_encodeByte (i : Instr) : decodeByte (encodeByte i) = i := by
  rw [encodeByte, decodeByte_append]
  cases i <;> rfl

/-- Where the row uses the nibble (R85), the decoded instruction holds the whole byte. -/
theorem encodeByte_decodeByte (b : Byte) (h : opcodeOf b = 0x5#4 ∨ opcodeOf b = 0x6#4 ∨ opcodeOf b = 0x8#4) :
    encodeByte (decodeByte b) = b := by
  have hoperand : (decodeByte b).operand = operandOf b := by
    rcases h with h | h | h <;> rw [decodeByte, h] <;> rfl
  rw [encodeByte, decodeByte_opcode, hoperand, opcodeOf_append_operandOf]

theorem wellFormed_none_iff (i : Instr) : Line.wellFormed ⟨i, none⟩ = true ↔ i.length ≠ 2 := by
  simp [Line.wellFormed]

theorem wellFormed_some_iff (i : Instr) (v : Byte) : Line.wellFormed ⟨i, some v⟩ = true ↔ i.length = 2 := by
  simp [Line.wellFormed]

/-- The decoder answers a line exactly when the line is well-formed, its first byte decodes to its instruction, and its
literal and then the rest follow. -/
theorem decode_eq_ok_iff (bs : List Byte) (l : Line) (rest : List Byte) :
    decode bs = .ok (l, rest) ↔
      l.wellFormed = true ∧ ∃ b, bs = b :: (l.literal.toList ++ rest) ∧ decodeByte b = l.instr := by
  obtain ⟨i, literal⟩ := l
  constructor
  · intro h
    unfold decode at h
    split at h
    · cases h
    · next b tail =>
      split_ifs at h with hlength
      · cases tail with
        | nil => cases h
        | cons v tail =>
          cases h
          exact ⟨(wellFormed_some_iff _ v).mpr hlength, b, rfl, rfl⟩
      · cases h
        exact ⟨(wellFormed_none_iff _).mpr hlength, b, rfl, rfl⟩
  · rintro ⟨hwf, b, rfl, rfl⟩
    cases literal with
    | none => simp [decode, (wellFormed_none_iff _).mp hwf]
    | some v => simp [decode, (wellFormed_some_iff _ v).mp hwf]

/-- The decoder refuses an empty sequence and a LOADIMM with nothing after it (R81), and nothing else. -/
theorem decode_eq_error (bs : List Byte) (e : DecodeError) (h : decode bs = .error e) :
    (bs = [] ∧ e = .noByte) ∨ ∃ b, bs = [b] ∧ (decodeByte b).length = 2 ∧ e = .literalMissing := by
  unfold decode at h
  split at h
  · cases h
    exact .inl ⟨rfl, rfl⟩
  · next b tail =>
    split_ifs at h with hlength
    cases tail with
    | nil =>
      cases h
      exact .inr ⟨b, rfl, hlength, rfl⟩
    | cons v tail => cases h

/-- Reading in sequence is reading the first line and then the others. -/
theorem disassemble_of_decode (bs : List Byte) (l : Line) (rest : List Byte) (h : decode bs = .ok (l, rest)) :
    disassemble bs = (disassemble rest).map (l :: ·) := by
  obtain ⟨i, literal⟩ := l
  obtain ⟨hwf, b, rfl, rfl⟩ := (decode_eq_ok_iff bs _ rest).mp h
  cases literal with
  | some v => simp [disassemble, (wellFormed_some_iff _ v).mp hwf]
  | none =>
    have hlength := (wellFormed_none_iff _).mp hwf
    cases rest with
    | nil => simp [disassemble, hlength, Except.map]
    | cons v tail => simp [disassemble, hlength]

end Sys2Proof

namespace Sys2Proof.Laws

/-- Settles O4: the first byte of an encoding decodes to its instruction, which is all the decoder asks of it. -/
theorem decodeOfEncodeIsTheLine : Obligations.DecodeOfEncodeIsTheLine := by
  unfold Obligations.DecodeOfEncodeIsTheLine
  intro l rest hwf
  exact (decode_eq_ok_iff _ l rest).mpr ⟨hwf, encodeByte l.instr, rfl, decodeByte_encodeByte l.instr⟩

/-- Settles O6, by induction on the lines: the first line decodes from the front and leaves the bytes of the others. -/
theorem disassembleOfAssembleIsTheProgram : Obligations.DisassembleOfAssembleIsTheProgram := by
  unfold Obligations.DisassembleOfAssembleIsTheProgram
  intro ls hwf
  induction ls with
  | nil => rfl
  | cons l ls ih =>
    have hfirst : decode (encode l ++ assemble ls) = .ok (l, assemble ls) :=
      decodeOfEncodeIsTheLine l (assemble ls) (hwf l List.mem_cons_self)
    have hothers : disassemble (assemble ls) = .ok ls := ih fun k hk => hwf k (List.mem_cons_of_mem l hk)
    calc disassemble (assemble (l :: ls))
        = (disassemble (assemble ls)).map (l :: ·) := disassemble_of_decode _ l _ hfirst
      _ = .ok (l :: ls) := by rw [hothers]; rfl

/-- Settles O5: the condition under which a line is decoded names its byte, and a byte whose nibble is used is held
whole by its instruction. -/
theorem decodedLineHasTheBytesRead : Obligations.DecodedLineHasTheBytesRead := by
  unfold Obligations.DecodedLineHasTheBytesRead
  refine ⟨fun bs l rest h => ?_, fun bs e h => ?_⟩
  · obtain ⟨hwf, b, rfl, hinstr⟩ := (decode_eq_ok_iff bs l rest).mp h
    refine ⟨hwf, b, rfl, hinstr, by rw [← hinstr, decodeByte_opcode], fun hused => ?_⟩
    rw [encode, ← hinstr, encodeByte_decodeByte b hused, List.cons_append]
  · obtain hempty | ⟨b, hbs, hlength, he⟩ := decode_eq_error bs e h
    · exact .inl hempty
    · have hopcode : opcodeOf b = 0x4#4 := by
        by_contra hother
        simp [Instr.length_eq_ite, hother] at hlength
      exact .inr ⟨b, hbs, hopcode, he⟩

/-- Settles O1: the bytes are numerals and the opcode map is evaluated on each. -/
theorem writtenBytesDecode : Obligations.WrittenBytesDecode := by
  unfold Obligations.WrittenBytesDecode
  decide

/-- Settles O3: the rows of opcodes 5, 6 and 8 hold the nibble, and the other rows are constants. -/
theorem operandUsedByThreeOpcodes : Obligations.OperandUsedByThreeOpcodes := by
  unfold Obligations.OperandUsedByThreeOpcodes
  intro op n n' hne
  simp only [decodeByte_append]
  unfold selectInstr
  split <;> simp_all

end Sys2Proof.Laws
end

section
/-! The instructions that touch the stack (10_state.md R32, 42_control_transfer.md R131 and R132, 43_stack.md): CALL and
PUSH fault on a full finite stack and push elsewhere, RET and POP fault on an empty stack and pop elsewhere. -/

namespace Sys2Proof.Machine

variable {p : Params}

/-! ### The two branches of each -/

theorem effect_call_of_full (target : Nibble) (m : Mcu p) (h : p.stackDepth = some m.stack.length) :
    effect (.call target) m = m.raise .stackOverflow 0x8#4 := if_pos h

theorem effect_call_of_room (target : Nibble) (m : Mcu p) (h : p.stackDepth ≠ some m.stack.length) :
    effect (.call target) m = (m.setStack (m.returnAddress :: m.stack)).goTarget target := if_neg h

theorem effect_push_of_full (m : Mcu p) (h : p.stackDepth = some m.stack.length) :
    effect .push m = m.raise .stackOverflow 0xA#4 := if_pos h

theorem effect_push_of_room (m : Mcu p) (h : p.stackDepth ≠ some m.stack.length) :
    effect .push m = (m.setStack (regToEntry p m.x0 :: m.stack)).goSequential := if_neg h

theorem effect_ret_of_nil (m : Mcu p) (h : m.stack = []) : effect .ret m = m.raise .stackUnderflow 0x9#4 := by
  simp [effect, h]

theorem effect_ret_of_cons (m : Mcu p) {e : BitVec p.sw} {rest : List (BitVec p.sw)} (h : m.stack = e :: rest) :
    effect .ret m = (m.setStack rest).goReturn e := by
  simp [effect, h]

theorem effect_pop_of_nil (m : Mcu p) (h : m.stack = []) : effect .pop m = m.raise .stackUnderflow 0xB#4 := by
  simp [effect, h]

theorem effect_pop_of_cons (m : Mcu p) {e : BitVec p.sw} {rest : List (BitVec p.sw)} (h : m.stack = e :: rest) :
    effect .pop m = ((m.setStack rest).setX0 (entryToReg p e)).goSequential := by
  simp [effect, h]

/-! ### What it says that no fault was taken -/

theorem room_of_call_ok {target : Nibble} {m : Mcu p} (hok : (effect (.call target) m).runState ≠ .faulted) :
    p.stackDepth ≠ some m.stack.length := by
  intro hfull
  rw [effect_call_of_full target m hfull] at hok
  exact hok rfl

theorem room_of_push_ok {m : Mcu p} (hok : (effect .push m).runState ≠ .faulted) :
    p.stackDepth ≠ some m.stack.length := by
  intro hfull
  rw [effect_push_of_full m hfull] at hok
  exact hok rfl

theorem cons_of_ret_ok {m : Mcu p} (hok : (effect .ret m).runState ≠ .faulted) : ∃ e rest, m.stack = e :: rest := by
  refine List.exists_cons_of_ne_nil fun hempty => ?_
  rw [effect_ret_of_nil m hempty] at hok
  exact hok rfl

theorem cons_of_pop_ok {m : Mcu p} (hok : (effect .pop m).runState ≠ .faulted) : ∃ e rest, m.stack = e :: rest := by
  refine List.exists_cons_of_ne_nil fun hempty => ?_
  rw [effect_pop_of_nil m hempty] at hok
  exact hok rfl

/-! ### The values that pass through the stack -/

/-- The return address does not wrap while CALL stands inside memory. -/
theorem returnAddress_toNat (m : Mcu p) (h : m.pc.toNat < memSize) : m.returnAddress.toNat = m.pc.toNat + 2 :=
  pcPlus m 2 (by decide) h

/-- The accumulator comes back from an entry as it was, for an entry is at least as wide. -/
theorem entryToReg_regToEntry (v : BitVec p.xlen) : entryToReg p (regToEntry p v) = v :=
  BitVec.eq_of_toNat_eq (by rw [entryToReg_toNat, regToEntry_toNat, Nat.mod_eq_of_lt v.isLt])

/-- A fault in full: the record with the pc's low byte, and the run state. -/
theorem raise_eq (m : Mcu p) (kind : FaultKind) (opcode : Nibble) :
    m.raise kind opcode =
      { m with fault := some ⟨kind, BitVec.ofNat 8 m.pc.toNat, opcode⟩, runState := .faulted } := by
  rw [BitVec.ofNat_toNat]
  rfl

/-! ### The statements about one of the four -/

/-- Settles O14: with room CALL pushes its return address and takes its target; without, it is its fault. -/
theorem callPushesReturnAddress : Obligations.CallPushesReturnAddress := by
  unfold Obligations.CallPushesReturnAddress
  refine ⟨decodeByte_append 0x8#4, fun target p m hpc => ?_⟩
  have hinside : m.pc.toNat < memSize := Nat.lt_succ_of_le hpc
  rw [exec_eq_effect _ m hinside]
  refine ⟨fun hroom => ?_, fun hfull => ?_⟩
  · rw [effect_call_of_room target m hroom]
    exact ⟨_, m.returnAddress, rfl, rfl, returnAddress_toNat m hinside, targetValue p target, rfl, fun _ => rfl⟩
  · rw [effect_call_of_full target m hfull, raise_eq]

/-- Settles O15: RET takes the top entry for its pc; past memory the next step is the halt. -/
theorem retJumpsToTop : Obligations.RetJumpsToTop := by
  unfold Obligations.RetJumpsToTop
  refine ⟨decodeByte_append 0x9#4, fun p m hpc => ?_⟩
  rw [exec_eq_effect _ m (Nat.lt_succ_of_le hpc)]
  refine ⟨fun e rest hcons => ?_, fun hempty => ?_⟩
  · rw [effect_ret_of_cons m hcons]
    exact ⟨_, rfl, rfl, fun hpast hrun => step_halts_of_running _ hrun hpast, fun _ => rfl⟩
  · rw [effect_ret_of_nil m hempty, raise_eq]

/-- Settles O16: with room PUSH pushes the accumulator, which an entry is wide enough to hold; without, it is its
fault. -/
theorem pushPushesAccumulator : Obligations.PushPushesAccumulator := by
  unfold Obligations.PushPushesAccumulator
  refine ⟨decodeByte_append 0xA#4, fun p m hpc => ?_⟩
  have hinside : m.pc.toNat < memSize := Nat.lt_succ_of_le hpc
  rw [exec_eq_effect _ m hinside]
  refine ⟨fun hroom => ?_, fun hfull => ?_⟩
  · rw [effect_push_of_room m hroom]
    exact ⟨_, regToEntry p m.x0, rfl, rfl, regToEntry_toNat p m.x0, pcPlus m 1 (by decide) hinside, rfl, fun _ => rfl⟩
  · rw [effect_push_of_full m hfull, raise_eq]

/-- Settles O17: POP keeps the entry's low bits and advances. -/
theorem popPopsIntoAccumulator : Obligations.PopPopsIntoAccumulator := by
  unfold Obligations.PopPopsIntoAccumulator
  refine ⟨decodeByte_append 0xB#4, fun p m hpc => ?_⟩
  have hinside : m.pc.toNat < memSize := Nat.lt_succ_of_le hpc
  rw [exec_eq_effect _ m hinside]
  refine ⟨fun e rest hcons => ?_, fun hempty => ?_⟩
  · rw [effect_pop_of_cons m hcons]
    exact ⟨_, rfl, entryToReg_toNat p e, pcPlus m 1 (by decide) hinside, rfl, fun _ => rfl⟩
  · rw [effect_pop_of_nil m hempty, raise_eq]

/-! ### The stack under every instruction -/

/-- A faulting instruction keeps the stack. -/
theorem effect_stack_of_faulted (i : Instr) (m : Mcu p) (hrun : m.runState ≠ .faulted)
    (hfault : (effect i m).runState = .faulted) : (effect i m).stack = m.stack := by
  obtain ⟨kind, opcode, hraise⟩ | hkeep := effect_raises_or_keeps_runState i m
  · rw [hraise, raise_stack]
  · exact absurd (hkeep ▸ hfault) hrun

/-- LOADIMM keeps the stack whether it faults or not. -/
theorem effect_loadimm_stack (m : Mcu p) : (effect .loadimm m).stack = m.stack := by
  by_cases hlast : m.pc.toNat = 255
  · rw [effect_loadimm_of_eq m hlast, raise_stack]
  · simp [effect, hlast]

theorem effect_beqz_stack (target : Nibble) (m : Mcu p) : (effect (.beqz target) m).stack = m.stack := by
  rw [effect_beqz_frame]

/-- Settles O22: of the four instructions the branch without a fault pushes or pops, and the other rows write no
stack. -/
theorem fourInstructionsTouchTheStack : Obligations.FourInstructionsTouchTheStack := by
  unfold Obligations.FourInstructionsTouchTheStack
  intro i p m t hexec hrun
  obtain ⟨hpc, ht⟩ := exec_eq_next i m _ hexec
  obtain rfl : t = effect i m := by simpa using ht
  refine ⟨effect_stack_of_faulted i m hrun, fun hok => ?_⟩
  cases i with
  | call target =>
    rw [effect_call_of_room target m (room_of_call_ok hok)]
    exact ⟨m.returnAddress, rfl, returnAddress_toNat m hpc⟩
  | push =>
    rw [effect_push_of_room m (room_of_push_ok hok)]
    exact ⟨regToEntry p m.x0, rfl, regToEntry_toNat p m.x0⟩
  | ret =>
    obtain ⟨e, rest, hcons⟩ := cons_of_ret_ok hok
    rw [effect_ret_of_cons m hcons]
    exact hcons
  | pop =>
    obtain ⟨e, rest, hcons⟩ := cons_of_pop_ok hok
    rw [effect_pop_of_cons m hcons]
    exact ⟨e, hcons, entryToReg_toNat p e⟩
  | loadimm => exact effect_loadimm_stack m
  | beqz target => exact effect_beqz_stack target m
  | nop | inc | print | add | load _ | sub | sense | nopD | nopE | nopF => rfl

/-! ### Matching pushes and pops -/

/-- Settles O41: the stack after PUSH has the widened accumulator on top, and POP narrows it back. -/
theorem pushThenPopRestores : Obligations.PushThenPopRestores := by
  unfold Obligations.PushThenPopRestores
  intro p m t m' hpush hrun hok hstack hpc
  obtain ⟨-, ht⟩ := exec_eq_next .push m _ hpush
  obtain rfl : t = effect .push m := by simpa using ht
  have hcons : m'.stack = regToEntry p m.x0 :: m.stack := by
    rw [hstack, effect_push_of_room m (room_of_push_ok hok)]
    rfl
  have hinside : m'.pc.toNat < memSize := Nat.lt_succ_of_le hpc
  rw [exec_eq_effect .pop m' hinside, effect_pop_of_cons m' hcons, entryToReg_regToEntry]
  exact ⟨_, rfl, rfl, rfl, pcPlus m' 1 (by decide) hinside, rfl, rfl⟩

/-- One instruction that goes on, and then the others. -/
theorem execSeq_cons_of_next {i : Instr} {s t : State} (h : exec i s = .next t) (rest : List Instr) :
    execSeq (i :: rest) s = execSeq rest t := by
  rw [execSeq, h]

/-- Two instructions that stand inside memory one after the other. -/
theorem execSeq_pair {i j : Instr} {m : Mcu p} (hfirst : m.pc.toNat < memSize)
    (hsecond : (effect i m).pc.toNat < memSize) :
    execSeq [i, j] ⟨p, m⟩ = .next ⟨p, effect j (effect i m)⟩ := by
  rw [execSeq_cons_of_next (exec_eq_effect i m hfirst), execSeq_cons_of_next (exec_eq_effect j _ hsecond), execSeq]

/-- Settles O42: the stack after CALL has the return address on top, and RET takes the top entry for its pc, whoever
pushed it. -/
theorem callThenRetReturns : Obligations.CallThenRetReturns := by
  unfold Obligations.CallThenRetReturns
  refine ⟨fun target p m t m' hcall hrun hok hstack hpc => ?_, fun p m hpc hroom => ?_⟩
  · obtain ⟨hinside, ht⟩ := exec_eq_next (.call target) m _ hcall
    obtain rfl : t = effect (.call target) m := by simpa using ht
    have hcons : m'.stack = m.returnAddress :: m.stack := by
      rw [hstack, effect_call_of_room target m (room_of_call_ok hok)]
      rfl
    rw [exec_eq_effect .ret m' (Nat.lt_succ_of_le hpc), effect_ret_of_cons m' hcons]
    exact ⟨_, rfl, returnAddress_toNat m hinside, rfl, rfl⟩
  · have hinside : m.pc.toNat < memSize := by simp only [memSize]; omega
    have hpushed := effect_push_of_room m hroom
    have hnext : (effect .push m).pc.toNat = m.pc.toNat + 1 := by
      rw [hpushed]
      exact pcPlus m 1 (by decide) hinside
    rw [execSeq_pair hinside (by rw [hnext]; exact Nat.lt_of_succ_le hpc), hpushed, effect_ret_of_cons _ rfl]
    exact ⟨_, rfl, regToEntry_toNat p m.x0, rfl⟩

end Sys2Proof.Machine
end

section
/-! What holds of every instruction (10_state.md sections 1 and 8, 20_memory.md section 1, 60_exceptions.md section 3):
an instruction takes a fault or completes, and one that completes writes no more than `x[0]`, `x[1]`, the stack, the pc
and the ports. -/

namespace Sys2Proof.Machine

variable {p : Params}

/-! ### The frame of an instruction -/

/-- From `m` to `t` nothing changed that an instruction without a fault leaves alone. -/
structure Mcu.Completes (m t : Mcu p) : Prop where
  mem : t.mem = m.mem
  x2 : t.x2 = m.x2
  x3 : t.x3 = m.x3
  runState : t.runState = m.runState
  fault : t.fault = m.fault
  id : t.id = m.id
  ir : t.ir = m.ir

/-- An instruction takes a fault, or it completes. -/
theorem effect_raises_or_completes (i : Instr) (m : Mcu p) :
    (∃ kind opcode, effect i m = m.raise kind opcode) ∨ m.Completes (effect i m) := by
  cases i with
  | loadimm | call _ | ret | push | pop =>
    simp only [effect]
    split
    · exact .inl ⟨_, _, rfl⟩
    · exact .inr ⟨rfl, rfl, rfl, rfl, rfl, rfl, rfl⟩
  | beqz target =>
    rw [effect_beqz_frame]
    exact .inr ⟨rfl, rfl, rfl, rfl, rfl, rfl, rfl⟩
  | nop | inc | print | add | load _ | sub | sense | nopD | nopE | nopF =>
    exact .inr ⟨rfl, rfl, rfl, rfl, rfl, rfl, rfl⟩

/-- An instruction that does not end FAULTED has completed. -/
theorem completes_of_ok (i : Instr) (m : Mcu p) (hok : (effect i m).runState ≠ .faulted) :
    m.Completes (effect i m) := by
  obtain ⟨kind, opcode, hraise⟩ | hcompletes := effect_raises_or_completes i m
  · rw [hraise] at hok
    exact absurd rfl hok
  · exact hcompletes

/-- Fault or not, no instruction writes memory (20_memory.md R51). -/
@[simp] theorem effect_mem (i : Instr) (m : Mcu p) : (effect i m).mem = m.mem := by
  obtain ⟨kind, opcode, hraise⟩ | hcompletes := effect_raises_or_completes i m
  · rw [hraise, raise_mem]
  · exact hcompletes.mem

@[simp] theorem effect_ir (i : Instr) (m : Mcu p) : (effect i m).ir = m.ir := by
  obtain ⟨kind, opcode, hraise⟩ | hcompletes := effect_raises_or_completes i m
  · rw [hraise, raise_ir]
  · exact hcompletes.ir

@[simp] theorem effect_id (i : Instr) (m : Mcu p) : (effect i m).id = m.id := by
  obtain ⟨kind, opcode, hraise⟩ | hcompletes := effect_raises_or_completes i m
  · rw [hraise, raise_id]
  · exact hcompletes.id

/-- An instruction leaves `run_state` alone or sets it to FAULTED. -/
theorem effect_runState (i : Instr) (m : Mcu p) :
    (effect i m).runState = m.runState ∨ (effect i m).runState = .faulted := by
  obtain ⟨kind, opcode, hraise⟩ | hcompletes := effect_raises_or_completes i m
  · rw [hraise]
    exact .inr rfl
  · exact .inl hcompletes.runState

/-- The core with other contents where no instruction looks. -/
def Mcu.withUnused (m : Mcu p) (a b : BitVec p.xlen) (c : BitVec p.idWidth) (d : Byte) : Mcu p :=
  { m with x2 := a, x3 := b, id := c, ir := d }

/-- An instruction does the same whatever the unused state holds, and leaves it there. -/
theorem effect_withUnused (i : Instr) (m : Mcu p) (a b : BitVec p.xlen) (c : BitVec p.idWidth) (d : Byte) :
    effect i (m.withUnused a b c d) = (effect i m).withUnused a b c d := by
  cases i with
  | loadimm | beqz _ | call _ | push =>
    simp only [effect, apply_ite (Mcu.withUnused · a b c d)]
    rfl
  | ret =>
    cases hstack : m.stack with
    | nil => rw [effect_ret_of_nil m hstack, effect_ret_of_nil (m.withUnused a b c d) hstack]; rfl
    | cons e rest => rw [effect_ret_of_cons m hstack, effect_ret_of_cons (m.withUnused a b c d) hstack]; rfl
  | pop =>
    cases hstack : m.stack with
    | nil => rw [effect_pop_of_nil m hstack, effect_pop_of_nil (m.withUnused a b c d) hstack]; rfl
    | cons e rest => rw [effect_pop_of_cons m hstack, effect_pop_of_cons (m.withUnused a b c d) hstack]; rfl
  | nop | inc | print | add | load _ | sub | sense | nopD | nopE | nopF => rfl

/-- Settles O25: the outcome is the effect where the instruction stands inside memory, and the effect does not look at
the unused state. -/
theorem unusedStateIsNeverRead : Obligations.UnusedStateIsNeverRead := by
  unfold Obligations.UnusedStateIsNeverRead
  intro i p m t a b c d hexec
  obtain ⟨hpc, ht⟩ := exec_eq_next i m _ hexec
  obtain rfl : t = effect i m := by simpa using ht
  calc exec i ⟨p, m.withUnused a b c d⟩
      = .next ⟨p, effect i (m.withUnused a b c d)⟩ := exec_eq_effect i (m.withUnused a b c d) hpc
    _ = .next ⟨p, (effect i m).withUnused a b c d⟩ := by rw [effect_withUnused]

/-! ### The registers -/

theorem effect_x0_of_not_writer (i : Instr) (m : Mcu p) :
    (effect i m).x0 = m.x0 ∨ i = .inc ∨ i = .add ∨ i = .sub ∨ (∃ a, i = .load a) ∨ i = .pop ∨ i = .sense := by
  cases i with
  | loadimm | call _ | ret | push =>
    left
    simp only [effect]
    split <;> rfl
  | beqz target =>
    left
    rw [effect_beqz_frame]
  | nop | print | nopD | nopE | nopF => exact .inl rfl
  | inc | add | load _ | sub | pop | sense => simp

theorem effect_x1_of_not_writer (i : Instr) (m : Mcu p) : (effect i m).x1 = m.x1 ∨ i = .loadimm := by
  cases i with
  | call _ | ret | push | pop =>
    left
    simp only [effect]
    split <;> rfl
  | beqz target =>
    left
    rw [effect_beqz_frame]
  | nop | inc | print | add | load _ | sub | sense | nopD | nopE | nopF => exact .inl rfl
  | loadimm => exact .inr rfl

/-- Settles O23: a row that is no writer of a register has the register in its frame, and the unused state stays what it
was, as `effect_withUnused` says of the state's own contents. -/
theorem registerWriters : Obligations.RegisterWriters := by
  unfold Obligations.RegisterWriters
  intro i p m t hexec
  obtain ⟨-, ht⟩ := exec_eq_next i m _ hexec
  obtain rfl : t = effect i m := by simpa using ht
  have hunused : effect i m = (effect i m).withUnused m.x2 m.x3 m.id m.ir :=
    effect_withUnused i m m.x2 m.x3 m.id m.ir
  exact ⟨(effect_x0_of_not_writer i m).resolve_left, (effect_x1_of_not_writer i m).resolve_left,
    (congrArg Mcu.x2 hunused :), (congrArg Mcu.x3 hunused :), (congrArg Mcu.id hunused :), (congrArg Mcu.ir hunused :)⟩

/-! ### The ports -/

theorem effect_events (i : Instr) (m : Mcu p) (hprint : i ≠ .print) (hsense : i ≠ .sense) :
    (effect i m).events = m.events := by
  cases i with
  | loadimm | call _ | ret | push | pop =>
    simp only [effect]
    split <;> rfl
  | beqz target => rw [effect_beqz_frame]
  | nop | inc | add | load _ | sub | nopD | nopE | nopF => rfl
  | print => contradiction
  | sense => contradiction

theorem effect_sensor (i : Instr) (m : Mcu p) (hsense : i ≠ .sense) : (effect i m).sensor = m.sensor := by
  cases i with
  | loadimm | call _ | ret | push | pop =>
    simp only [effect]
    split <;> rfl
  | beqz target => rw [effect_beqz_frame]
  | nop | inc | print | add | load _ | sub | nopD | nopE | nopF => rfl
  | sense => contradiction

@[simp] theorem printHistory_append (es fs : List (Event p)) :
    printHistory (es ++ fs) = printHistory es ++ printHistory fs := by
  induction es with
  | nil => rfl
  | cons e es ih => cases e <;> simp [printHistory, ih]

@[simp] theorem senseHistory_append (es fs : List (Event p)) :
    senseHistory (es ++ fs) = senseHistory es ++ senseHistory fs := by
  induction es with
  | nil => rfl
  | cons e es ih => cases e <;> simp [senseHistory, ih]

/-- Settles O26: PRINT and SENSE append one event each, which one history lists and the other skips; the other rows have
the ports in their frame. -/
theorem eventsOnlyFromPrintAndSense : Obligations.EventsOnlyFromPrintAndSense := by
  unfold Obligations.EventsOnlyFromPrintAndSense
  intro i p m t hexec
  obtain ⟨-, ht⟩ := exec_eq_next i m _ hexec
  obtain rfl : t = effect i m := by simpa using ht
  refine ⟨?_, ?_, effect_events i m, effect_sensor i m⟩
  · rintro rfl
    simp [effect, printHistory, senseHistory]
  · rintro rfl
    have hbyte (hvalid : p.valid = true) : (byteToReg p m.sensor.read.1).toNat = m.sensor.read.1.toNat :=
      byteToReg_toNat p hvalid _
    simpa [effect, printHistory, senseHistory] using hbyte

/-- Settles O18: PRINT appends its event and advances. -/
theorem printEmitsAccumulator : Obligations.PrintEmitsAccumulator := by
  unfold Obligations.PrintEmitsAccumulator
  refine ⟨decodeByte_append 0x2#4, fun p m hpc => ?_⟩
  have hinside : m.pc.toNat < memSize := Nat.lt_succ_of_le hpc
  exact ⟨_, exec_eq_effect .print m hinside, rfl, pcPlus m 1 (by decide) hinside, rfl, fun _ => rfl⟩

/-- Settles O19: SENSE reads the sensor once, and each form of the sensor answers as `Sensor.read` says. -/
theorem senseReadsSensor : Obligations.SenseReadsSensor := by
  unfold Obligations.SenseReadsSensor
  refine ⟨decodeByte_append 0xC#4, fun p m hvalid hpc => ?_⟩
  have hinside : m.pc.toNat < memSize := Nat.lt_succ_of_le hpc
  have hread : (effect .sense m).sensor = m.sensor.read.2 := rfl
  refine ⟨effect .sense m, m.sensor.read.1, exec_eq_effect .sense m hinside, byteToReg_toNat p hvalid _, rfl,
    pcPlus m 1 (by decide) hinside, rfl, fun habsent => ?_, fun r rest n hreply => ?_, fun n hfree => ?_, fun _ => rfl⟩
  · rw [hread, habsent, sensorRead_absent]
    exact ⟨rfl, rfl⟩
  · rw [hread, hreply, sensorRead_reply]
    exact ⟨rfl, rfl⟩
  · rw [hread, hfree, sensorRead_free]
    exact ⟨rfl, rfl⟩

/-! ### Where an instruction can end -/

/-- Settles O27: the eleven rows have the record and the run state in their frame, and any row completes or faults. -/
theorem elevenOpcodesCannotFault : Obligations.ElevenOpcodesCannotFault := by
  unfold Obligations.ElevenOpcodesCannotFault
  intro i p m t hexec
  obtain ⟨-, ht⟩ := exec_eq_next i m _ hexec
  obtain rfl : t = effect i m := by simpa using ht
  refine ⟨fun hloadimm hret hpop hpush hcall => ?_, effect_runState i m⟩
  cases i with
  | loadimm => exact absurd rfl hloadimm
  | ret => exact absurd rfl hret
  | pop => exact absurd rfl hpop
  | push => exact absurd rfl hpush
  | call target => exact absurd rfl (hcall target)
  | beqz target =>
    rw [effect_beqz_frame]
    exact ⟨rfl, rfl⟩
  | nop | inc | print | add | load _ | sub | sense | nopD | nopE | nopF => exact ⟨rfl, rfl⟩

/-- Settles O20: in every row the test of the pc comes before anything else. -/
theorem executeRefusedOutsideMemory : Obligations.ExecuteRefusedOutsideMemory := by
  unfold Obligations.ExecuteRefusedOutsideMemory
  intro i p m hpc
  cases i <;>
    simp only [exec, execNop, execInc, execPrint, execAdd, execLoadimm, execBeqz, execLoad, execSub, execCall, execRet,
      execPush, execPop, execSense, execNopD, execNopE, execNopF, onMcu, atPc_of_ge m _ hpc]

/-! ### Arithmetic, alone and in sequence -/

/-- Settles O10: opcode 7 selects SUB whatever the nibble, and SUB writes the register difference. -/
theorem subSubtractsModulo : Obligations.SubSubtractsModulo := by
  unfold Obligations.SubSubtractsModulo
  refine ⟨decodeByte_append 0x7#4, fun p m hpc => ?_⟩
  obtain ⟨t, hexec, hx0, hframe⟩ := exec_writes_x0_and_advances (i := .sub) (m := m) rfl hpc
  have hdifference : t.x0.toNat = (m.x0.toNat + 2 ^ p.xlen - m.x1.toNat) % 2 ^ p.xlen := by
    have := m.x1.isLt
    rw [hx0, BitVec.toNat_sub]
    congr 1
    omega
  exact ⟨t, hexec, hdifference, hframe⟩

/-- Settles O39, by induction on the number of INC: the first adds 1 and the others, from where it leaves, the rest. -/
theorem repeatedIncCounts : Obligations.RepeatedIncCounts := by
  unfold Obligations.RepeatedIncCounts
  intro n p
  induction n with
  | zero => exact fun m _ => ⟨m, rfl, (Nat.mod_eq_of_lt m.x0.isLt).symm, rfl, rfl⟩
  | succ n ih =>
    intro m hpc
    obtain ⟨u, hexec, hx0, hnext, hu, -⟩ := exec_writes_x0_and_advances (i := .inc) (m := m) rfl (by omega)
    obtain ⟨t, hrest, htx0, htpc, ht⟩ := ih u (by omega)
    refine ⟨t, ?_, ?_, by omega, ?_⟩
    · rw [List.replicate_succ, execSeq_cons_of_next hexec, hrest]
    · rw [htx0, hx0, BitVec.toNat_add, BitVec.toNat_ofNat, Nat.add_mod_mod, Nat.mod_add_mod, Nat.add_right_comm,
        Nat.add_assoc]
    · rw [ht, hu]

/-- Settles O40: a register sum less the summand is the register, and a difference plus the subtrahend is too; LOADIMM
puts the literal where ADD takes its summand. -/
theorem arithmeticIdentities : Obligations.ArithmeticIdentities := by
  unfold Obligations.ArithmeticIdentities
  intro p m hpc
  have hinside : m.pc.toNat < memSize := by simp only [memSize]; omega
  have hnext : (m.pc + 1#p.sw).toNat = m.pc.toNat + 1 := pcPlus m 1 (by decide) hinside
  have hinside' : (m.pc + 1#p.sw).toNat < memSize := by simp only [memSize]; omega
  have htwo : (m.pc + 1#p.sw + 1#p.sw).toNat = m.pc.toNat + 2 := by
    rw [← Nat.add_assoc _ 1 1, ← hnext]
    exact pcPlus m.goSequential 1 (by decide) hinside'
  refine ⟨⟨_, execSeq_pair hinside hinside', htwo, ?_⟩, ⟨_, execSeq_pair hinside hinside', htwo, ?_⟩,
    fun hvalid hpc3 => ?_⟩
  · have hx0 : m.x0 + m.x1 - m.x1 = m.x0 := BitVec.add_sub_cancel _ _
    calc effect .sub (effect .add m)
        = { m with x0 := m.x0 + m.x1 - m.x1, pc := m.pc + 1#p.sw + 1#p.sw } := rfl
      _ = { m with pc := m.pc + 1#p.sw + 1#p.sw } := by rw [hx0]
  · have hx0 : m.x0 - m.x1 + m.x1 = m.x0 := BitVec.sub_add_cancel _ _
    calc effect .add (effect .sub m)
        = { m with x0 := m.x0 - m.x1 + m.x1, pc := m.pc + 1#p.sw + 1#p.sw } := rfl
      _ = { m with pc := m.pc + 1#p.sw + 1#p.sw } := by rw [hx0]
  · have hloaded := effect_loadimm_of_lt m (by omega)
    have hskip : (effect .loadimm m).pc.toNat = m.pc.toNat + 2 := by
      rw [hloaded]
      exact pcPlus m 2 (by decide) hinside
    have hinside2 : (effect .loadimm m).pc.toNat < memSize := by simp only [memSize]; omega
    have hthree : (effect .add (effect .loadimm m)).pc.toNat = m.pc.toNat + 3 := by
      rw [← Nat.add_assoc _ 2 1, ← hskip]
      exact pcPlus _ 1 (by decide) hinside2
    refine ⟨_, _, execSeq_pair hinside hinside2, read_of_lt m.mem _ (by simp only [memSize]; omega), ?_, ?_, hthree, ?_⟩
      <;> rw [hloaded]
    · exact byteToReg_toNat p hvalid _
    · show (m.x0 + byteToReg p _).toNat = _
      rw [BitVec.toNat_add, byteToReg_toNat p hvalid]
    · rfl

end Sys2Proof.Machine
end

section
/-! The step as a function (70_reset_and_hazards.md R214, R217): it always answers, so what it leaves is written once,
`Mcu.turn` for one turn of the run loop and `Mcu.begun` for the start of a run before it. -/

namespace Sys2Proof.Machine

variable {p : Params}

/-! ### The turn -/

/-- The byte at the pc. -/
def Mcu.fetchedByte (m : Mcu p) : Byte := Memory.lookup m.mem m.pc.toNat

/-- The core after one turn of the run loop. -/
def Mcu.turn (m : Mcu p) : Mcu p :=
  if m.pc.toNat < memSize then effect (decodeByte m.fetchedByte) (m.latch m.fetchedByte) else m.halt

theorem turn_of_lt (m : Mcu p) (h : m.pc.toNat < memSize) :
    m.turn = effect (decodeByte m.fetchedByte) (m.latch m.fetchedByte) := if_pos h

theorem turn_of_ge (m : Mcu p) (h : memSize ≤ m.pc.toNat) : m.turn = m.halt := if_neg (Nat.not_lt.mpr h)

theorem stepInstruction_eq_turn (m : Mcu p) : stepInstruction ⟨p, m⟩ = .next ⟨p, m.turn⟩ := by
  by_cases h : m.pc.toNat < memSize
  · rw [turn_of_lt m h, stepInstruction_executes m h]
    rfl
  · rw [turn_of_ge m (Nat.not_lt.mp h), stepInstruction_halts m (Nat.not_lt.mp h)]

/-- The core a step makes its turn on: where no run is in progress, that of the run it starts. -/
def Mcu.begun (m : Mcu p) : Mcu p := if m.runState = .running then m else m.startRun

theorem begun_of_running (m : Mcu p) (h : m.runState = .running) : m.begun = m := if_pos h

theorem begun_of_waiting (m : Mcu p) (h : m.runState ≠ .running) : m.begun = m.startRun := if_neg h

@[simp] theorem begun_runState (m : Mcu p) : m.begun.runState = .running := by
  unfold Mcu.begun
  split_ifs with h
  · exact h
  · rfl

@[simp] theorem begun_mem (m : Mcu p) : m.begun.mem = m.mem := by
  unfold Mcu.begun
  split_ifs <;> rfl

@[simp] theorem begun_id (m : Mcu p) : m.begun.id = m.id := by
  unfold Mcu.begun
  split_ifs <;> rfl

theorem beginRun_eq_begun (m : Mcu p) : beginRun ⟨p, m⟩ = ⟨p, m.begun⟩ := by
  unfold beginRun Mcu.begun
  split_ifs <;> rfl

/-- From every state the step answers. -/
theorem step_eq_turn (m : Mcu p) : step ⟨p, m⟩ = .next ⟨p, m.begun.turn⟩ := by
  rw [step, hostStep, beginRun_eq_begun, stepInstruction_eq_turn]

/-- The core after a step, read off its outcome. -/
theorem eq_turn_of_step {m t : Mcu p} (h : step ⟨p, m⟩ = .next ⟨p, t⟩) : t = m.begun.turn := by
  rw [step_eq_turn] at h
  simpa using h.symm

/-! ### What a turn can do -/

@[simp] theorem turn_mem (m : Mcu p) : m.turn.mem = m.mem := by
  unfold Mcu.turn
  split_ifs
  · rw [effect_mem, latch_mem]
  · rfl

@[simp] theorem turn_id (m : Mcu p) : m.turn.id = m.id := by
  unfold Mcu.turn
  split_ifs
  · rw [effect_id, latch_id]
  · rfl

/-- A turn halts past memory; inside, it takes the fault of the byte fetched, or that byte's instruction completes. -/
theorem turn_cases (m : Mcu p) (hrun : m.runState = .running) :
    (memSize ≤ m.pc.toNat ∧ m.turn = m.halt) ∨
      (m.pc.toNat < memSize ∧ ∃ f, (m.latch m.fetchedByte).FaultAt f ∧
        m.turn = (m.latch m.fetchedByte).raise f.kind (opcodeOf m.fetchedByte)) ∨
      (m.pc.toNat < memSize ∧ m.turn = effect (decodeByte m.fetchedByte) (m.latch m.fetchedByte) ∧
        (m.latch m.fetchedByte).Completes m.turn) := by
  by_cases hpc : m.pc.toNat < memSize
  · right
    rw [turn_of_lt m hpc]
    obtain ⟨f, hf, hraise⟩ | ⟨-, hkeeps⟩ :=
      effect_raises_faultAt_or_keeps (decodeByte m.fetchedByte) (m.latch m.fetchedByte) (decodeByte_opcode _) hpc
    · have ⟨_, hopcode, _⟩ := hf
      rw [hraise, hopcode]
      exact .inl ⟨hpc, f, hf, rfl⟩
    · exact .inr ⟨hpc, rfl, completes_of_ok _ _ (by rw [hkeeps, latch_runState, hrun]; decide)⟩
  · have hpast := Nat.not_lt.mp hpc
    exact .inl ⟨hpast, turn_of_ge m hpast⟩

/-- No turn of a run in progress leads to IDLE. -/
theorem turn_not_idle (m : Mcu p) (hrun : m.runState = .running) : m.turn.runState ≠ .idle := by
  obtain ⟨-, hhalt⟩ | ⟨-, f, -, hraise⟩ | ⟨-, -, hcompletes⟩ := turn_cases m hrun
  · simp [hhalt]
  · simp [hraise]
  · simp [hcompletes.runState, hrun]

/-- Settles O35: the outcome is written out for every state, and the turn is that of a run in progress. -/
theorem stepAlwaysAnswers : Obligations.StepAlwaysAnswers := by
  unfold Obligations.StepAlwaysAnswers
  exact fun ⟨p, m⟩ => ⟨⟨p, m.begun.turn⟩, step_eq_turn m, turn_not_idle m.begun (begun_runState m)⟩

/-- Settles O24: memory is in the frame of every effect, and a step adds a latch, a halt or the start of a run. -/
theorem noInstructionWritesMemory : Obligations.NoInstructionWritesMemory := by
  unfold Obligations.NoInstructionWritesMemory
  refine ⟨fun i ⟨p, m⟩ t hexec => ?_, fun ⟨p, m⟩ t hstep => ?_⟩
  · obtain ⟨-, rfl⟩ := exec_eq_next i m t hexec
    exact ⟨rfl, fun a => by rw [effect_mem]⟩
  · rw [step_eq_turn] at hstep
    cases hstep
    exact ⟨rfl, fun a => by rw [turn_mem, begun_mem]⟩

/-! ### The parts of a step -/

/-- A step inside memory runs the byte it reads at the pc of the run. -/
theorem step_eq_exec_of_read {m : Mcu p} {b : Byte} (hread : Memory.read m.mem m.begun.pc.toNat = some b) :
    step ⟨p, m⟩ = exec (decodeByte b) ⟨p, m.begun.latch b⟩ := by
  have hpc := lt_memSize_of_read hread
  obtain rfl : m.begun.fetchedByte = b := by
    rw [Mcu.fetchedByte, begun_mem]
    simpa [read_of_lt m.mem _ hpc] using hread
  rw [step_eq_turn, turn_of_lt _ hpc]
  exact (exec_eq_effect _ (m.begun.latch m.begun.fetchedByte) hpc).symm

/-- Settles O32: the run that the step belongs to is the one in progress or the one it starts at 0. -/
theorem stepRunsDecodedInstruction : Obligations.StepRunsDecodedInstruction := by
  unfold Obligations.StepRunsDecodedInstruction
  refine fun p m b => ⟨fun hrun _ hread => ?_, fun hwait hread => ?_⟩
  · rw [step_eq_exec_of_read (by rwa [begun_of_running m hrun]), begun_of_running m hrun]
    rfl
  · rw [step_eq_exec_of_read (by simpa [begun_of_waiting m hwait] using hread), begun_of_waiting m hwait]
    rfl

/-- A turn inside memory latches the byte at the pc and does not halt. -/
theorem turn_fetches (m : Mcu p) (hrun : m.runState = .running) (hpc : m.pc.toNat < memSize) :
    Memory.read m.mem m.pc.toNat = some m.turn.ir ∧ m.turn.runState ≠ .halted := by
  rw [turn_of_lt m hpc, effect_ir, read_of_lt m.mem _ hpc]
  refine ⟨rfl, ?_⟩
  obtain hkept | hfaulted := effect_runState (decodeByte m.fetchedByte) (m.latch m.fetchedByte)
  · simp [hkept, hrun]
  · simp [hfaulted]

/-- Settles O33: the halt test decides between the halt and the fetch, and a run that the step starts stands at 0. -/
theorem haltTestThenFetch : Obligations.HaltTestThenFetch := by
  unfold Obligations.HaltTestThenFetch
  refine fun p m => ⟨step_halts_of_running m, fun hrun hpc => ?_, fun hwait => ?_⟩
  · rw [step_eq_turn, begun_of_running m hrun]
    exact ⟨_, rfl, turn_fetches m hrun (Nat.lt_succ_of_le hpc)⟩
  · have hzero : m.startRun.pc.toNat = 0 := by simp
    have hfetch := turn_fetches m.startRun rfl (by rw [hzero]; decide)
    rw [hzero] at hfetch
    rw [step_eq_turn, begun_of_waiting m hwait]
    exact ⟨_, rfl, hfetch⟩

/-- Settles O34: the state written out is `startRun`, from which the step starts no further run. -/
theorem stepStartsARun : Obligations.StepStartsARun := by
  unfold Obligations.StepStartsARun
  exact fun p m hwait => (step_waiting m hwait).trans (step_running m.startRun rfl).symm

/-! ### Faults -/

/-- Settles O30: the cause of StackOverflow is a latched opcode 8 or 0xA with a full finite stack. -/
theorem stackOverflowExactly : Obligations.StackOverflowExactly := by
  unfold Obligations.StackOverflowExactly
  intro p m t hrun _ hstep
  rw [step_faults_with_kind_iff hrun hstep]
  constructor
  · rintro ⟨b, hread, _, _, hop, hfull⟩
    exact ⟨hfull, b, hread, hop⟩
  · rintro ⟨hfull, b, hread, hop⟩
    exact ⟨b, hread, raise_fpc m (lt_memSize_of_read hread), rfl, hop, hfull⟩

/-- Settles O31: of what a turn can do only the fault ends FAULTED, and a fault writes its record and the run state. -/
theorem faultsArePrecise : Obligations.FaultsArePrecise := by
  unfold Obligations.FaultsArePrecise
  intro p m t hrun hstep hfaulted
  obtain rfl := eq_turn_of_step hstep
  rw [begun_of_running m hrun] at hfaulted ⊢
  obtain ⟨-, hhalt⟩ | ⟨hpc, f, -, hraise⟩ | ⟨-, -, hcompletes⟩ := turn_cases m hrun
  · simp [hhalt] at hfaulted
  · refine ⟨f.kind, m.fetchedByte, Nat.le_of_lt_succ hpc, read_of_lt m.mem _ hpc, ?_⟩
    rw [hraise, raise_eq]
    rfl
  · simp [hcompletes.runState, hrun] at hfaulted

end Sys2Proof.Machine
end

section
/-! Runs (70_reset_and_hazards.md R215 to R217, R220): `run` on fuel, a sequence of `step`s, and the moves of the core
after the host's `run` are three ways round the one loop `LoopEndsIn`. -/

namespace Sys2Proof.Machine

/-- The machine after one turn of the run loop. -/
def State.turn (s : State) : State := ⟨s.params, s.mcu.turn⟩

theorem stepInstruction_eq_next (s : State) : stepInstruction s = .next s.turn := stepInstruction_eq_turn s.mcu

/-- The run loop, `while run_state == RUNNING do step_instruction` (R215), entered in the first state is left in the
second. -/
inductive LoopEndsIn : State → State → Prop where
  | done (s : State) (h : s.mcu.runState ≠ .running) : LoopEndsIn s s
  | turn (s t : State) (h : s.mcu.runState = .running) (hturn : LoopEndsIn s.turn t) : LoopEndsIn s t

/-! ### The loop -/

theorem LoopEndsIn.not_running {s t : State} (h : LoopEndsIn s t) : t.mcu.runState ≠ .running := by
  induction h with
  | done s hs => exact hs
  | turn s t _ _ ih => exact ih

theorem LoopEndsIn.eq_of_not_running {s t : State} (h : LoopEndsIn s t) (hs : s.mcu.runState ≠ .running) : t = s := by
  cases h with
  | done => rfl
  | turn _ _ hrun _ => exact absurd hrun hs

/-- The loop is left in one state only. -/
theorem LoopEndsIn.unique {s t u : State} (ht : LoopEndsIn s t) (hu : LoopEndsIn s u) : t = u := by
  induction ht with
  | done s hs => exact (hu.eq_of_not_running hs).symm
  | turn s t hrun _ ih =>
    cases hu with
    | done _ hs => exact absurd hrun hs
    | turn _ _ _ hturn => exact ih hturn

theorem ended_iff (s : State) : s.ended = true ↔ s.mcu.runState = .halted ∨ s.mcu.runState = .faulted := by
  simp [State.ended]

theorem not_running_of_ended {s : State} (h : s.ended = true) : s.mcu.runState ≠ .running := by
  obtain h | h := (ended_iff s).mp h <;> simp [h]

/-- A state of a run that is not RUNNING is its end (R216). -/
theorem ended_of_not_running {s : State} (hidle : s.mcu.runState ≠ .idle) (hrun : s.mcu.runState ≠ .running) :
    s.ended = true := by
  rw [ended_iff]
  cases h : s.mcu.runState <;> simp_all

/-- The loop entered RUNNING is left at the end of the run. -/
theorem LoopEndsIn.ended {s t : State} (h : LoopEndsIn s t) (hidle : s.mcu.runState ≠ .idle) : t.ended = true := by
  induction h with
  | done s hs => exact ended_of_not_running hidle hs
  | turn s t hrun _ ih => exact ih (turn_not_idle s.mcu hrun)

/-! ### `run` -/

theorem runLoop_of_running {s : State} (fuel : Nat) (h : s.mcu.runState = .running) :
    runLoop (fuel + 1) s = runLoop fuel s.turn := by
  rw [runLoop, if_pos h, stepInstruction_eq_next]

theorem runLoop_of_not_running {s : State} (fuel : Nat) (h : s.mcu.runState ≠ .running) : runLoop fuel s = .next s := by
  cases fuel with
  | zero => rfl
  | succ fuel => rw [runLoop, if_neg h]

theorem loopEndsIn_of_runLoop {fuel : Nat} {s t : State} (h : runLoop fuel s = .next t)
    (ht : t.mcu.runState ≠ .running) : LoopEndsIn s t := by
  induction fuel generalizing s with
  | zero =>
    cases h
    exact .done _ ht
  | succ fuel ih =>
    by_cases hrun : s.mcu.runState = .running
    · rw [runLoop_of_running fuel hrun] at h
      exact .turn s t hrun (ih h)
    · rw [runLoop_of_not_running _ hrun] at h
      cases h
      exact .done _ hrun

theorem LoopEndsIn.exists_fuel {s t : State} (h : LoopEndsIn s t) : ∃ fuel, runLoop fuel s = .next t := by
  induction h with
  | done s _ => exact ⟨0, rfl⟩
  | turn s t hrun _ ih =>
    obtain ⟨fuel, hfuel⟩ := ih
    exact ⟨fuel + 1, by rw [runLoop_of_running fuel hrun, hfuel]⟩

theorem beginRun_not_idle (s : State) : (beginRun s).mcu.runState ≠ .idle := by simp [beginRun_runState]

/-- A run on some fuel is the loop entered at the start of the run. -/
theorem runEndsIn_iff (s t : State) : RunEndsIn s t ↔ LoopEndsIn (beginRun s) t := by
  constructor
  · rintro ⟨fuel, hrun, hended⟩
    exact loopEndsIn_of_runLoop hrun (not_running_of_ended hended)
  · intro h
    obtain ⟨fuel, hfuel⟩ := h.exists_fuel
    exact ⟨fuel, hfuel, h.ended (beginRun_not_idle s)⟩

/-- Settles O37: the loop is left in one state only. -/
theorem runEndsInOneState : Obligations.RunEndsInOneState := by
  unfold Obligations.RunEndsInOneState
  intro s t u ht hu
  exact ((runEndsIn_iff s t).mp ht).unique ((runEndsIn_iff s u).mp hu)

/-! ### How a run ends -/

/-- The two ends of a run: HALTED past memory with no record, or FAULTED inside memory with one. -/
def EndsProperly (t : State) : Prop :=
  (t.mcu.runState = .halted ∧ 256 ≤ t.mcu.pc.toNat ∧ t.mcu.fault = none) ∨
    ∃ f, t.mcu.runState = .faulted ∧ t.mcu.fault = some f ∧ t.mcu.pc.toNat ≤ 255

theorem LoopEndsIn.endsProperly {s t : State} (h : LoopEndsIn s t) (hrun : s.mcu.runState = .running)
    (hfault : s.mcu.fault = none) : EndsProperly t := by
  induction h with
  | done s hs => exact absurd hrun hs
  | turn s t _ hturn ih =>
    obtain ⟨hpc, hhalt⟩ | ⟨hpc, f, -, hraise⟩ | ⟨-, -, hcompletes⟩ := turn_cases s.mcu hrun
    · obtain rfl : t = s.turn := hturn.eq_of_not_running (by simp [State.turn, hhalt])
      refine .inl ?_
      simp only [State.turn, hhalt, halt_runState, halt_pc, halt_fault]
      exact ⟨trivial, hpc, hfault⟩
    · obtain rfl : t = s.turn := hturn.eq_of_not_running (by simp [State.turn, hraise])
      refine .inr ?_
      simp only [State.turn, hraise, raise_runState, raise_pc, raise_fault, latch_pc]
      exact ⟨_, trivial, rfl, Nat.le_of_lt_succ hpc⟩
    · exact ih (hcompletes.runState.trans hrun) (hcompletes.fault.trans hfault)

theorem beginRun_fault (s : State) (h : s.mcu.runState = .running → s.mcu.fault = none) :
    (beginRun s).mcu.fault = none := by
  by_cases hrun : s.mcu.runState = .running
  · rw [beginRun_of_running s hrun]
    exact h hrun
  · rw [beginRun_of_waiting s hrun]
    rfl

/-- Settles O36: the loop ends properly from a run without a fault, and the answer is read off its end. -/
theorem runEndsHaltedOrFaulted : Obligations.RunEndsHaltedOrFaulted := by
  unfold Obligations.RunEndsHaltedOrFaulted
  intro s t hfault hends
  have hend := ((runEndsIn_iff s t).mp hends).endsProperly (beginRun_runState s) (beginRun_fault s hfault)
  obtain ⟨hhalted, hpc, hnone⟩ | ⟨f, hfaulted, hsome, hpc⟩ := hend
  · exact .inl ⟨hhalted, hpc, hnone, by simp [State.runAnswer, hhalted]⟩
  · exact .inr ⟨f, hfaulted, hsome, hpc, by simp [State.runAnswer, hfaulted, hsome]⟩

/-! ### Steps -/

theorem hostStep_eq_next (s : State) : hostStep s = .next (beginRun s).turn := stepInstruction_eq_next (beginRun s)

theorem hostSteps_succ (n : Nat) (s : State) : hostSteps (n + 1) s = hostSteps n (beginRun s).turn := by
  rw [hostSteps, hostStep_eq_next]

theorem loopEndsIn_of_hostSteps {n : Nat} {s t : State} (h : hostSteps (n + 1) s = .next t) (ht : t.ended = true)
    (hbefore : ∀ k u, 1 ≤ k → k ≤ n → hostSteps k s = .next u → u.mcu.runState = .running) :
    LoopEndsIn (beginRun s) t := by
  induction n generalizing s with
  | zero =>
    rw [hostSteps_succ] at h
    cases h
    exact .turn _ _ (beginRun_runState s) (.done _ (not_running_of_ended ht))
  | succ n ih =>
    have hrun : (beginRun s).turn.mcu.runState = .running := hbefore 1 _ (by omega) (by omega) (hostSteps_succ 0 s)
    rw [hostSteps_succ] at h
    have hrest : LoopEndsIn (beginRun (beginRun s).turn) t :=
      ih h fun k u hk hkn hu => hbefore (k + 1) u (by omega) (by omega) (by rwa [hostSteps_succ])
    rw [beginRun_of_running _ hrun] at hrest
    exact .turn _ _ (beginRun_runState s) hrest

/-- The steps from `s`, where the first leaves RUNNING: that step and then the steps from what it leaves. -/
theorem stepsEndIn_of_running {s t : State} (hrun : (beginRun s).turn.mcu.runState = .running)
    (h : StepsEndIn (beginRun s).turn t) : StepsEndIn s t := by
  obtain ⟨n, hsteps, hended, hbefore⟩ := h
  refine ⟨n + 1, by rw [hostSteps_succ, hsteps], hended, fun k u hk hkn hu => ?_⟩
  obtain ⟨k, rfl⟩ := Nat.exists_eq_add_of_le' hk
  rw [hostSteps_succ] at hu
  cases k with
  | zero =>
    cases hu
    exact hrun
  | succ k => exact hbefore (k + 1) u (by omega) (by omega) hu

theorem LoopEndsIn.stepsEndIn {r t : State} (h : LoopEndsIn r t) {s : State} (hs : r = beginRun s) :
    StepsEndIn s t := by
  induction h generalizing s with
  | done r hr => exact absurd (hs ▸ beginRun_runState s) hr
  | turn r t hrun hturn ih =>
    subst hs
    by_cases hnext : (beginRun s).turn.mcu.runState = .running
    · exact stepsEndIn_of_running hnext (ih (beginRun_of_running _ hnext).symm)
    · obtain rfl := hturn.eq_of_not_running hnext
      exact ⟨0, hostSteps_succ 0 s, hturn.ended (turn_not_idle _ hrun), fun k u hk hk0 _ => by omega⟩

/-- Settles O38: steps to an end and one run are both the loop entered at the start of the run. -/
theorem stepsLeaveWhatRunLeaves : Obligations.StepsLeaveWhatRunLeaves := by
  unfold Obligations.StepsLeaveWhatRunLeaves
  intro s t
  rw [runEndsIn_iff]
  exact ⟨fun ⟨_, hsteps, hended, hbefore⟩ => loopEndsIn_of_hostSteps hsteps hended hbefore, fun h => h.stepsEndIn rfl⟩

/-! ### The moves of the core -/

theorem atLoopTest_of_not_running {s : State} (h : s.mcu.runState ≠ .running) :
    Session.atLoopTest s = Session.atHost s := by
  rw [Session.atLoopTest, if_neg h, Session.atHost]

theorem coreMove_atLoopTest_of_running {s : State} (h : s.mcu.runState = .running) :
    coreMove (.atLoopTest s) = some (.next (.atLoopTest s.turn)) := by
  rw [coreMove_running _ ((atLoopTest_control_core s).mpr h) h, atLoopTest_state, stepInstruction_eq_next]
  rfl

theorem coreMoves_of_running {s : State} (n : Nat) (h : s.mcu.runState = .running) :
    coreMoves (n + 1) (.atLoopTest s) = coreMoves n (.atLoopTest s.turn) := by
  rw [coreMoves, coreMove_atLoopTest_of_running h]

theorem coreMoves_atHost (n : Nat) (s : State) : coreMoves n (.atHost s) = .next (.atHost s) := by
  cases n with
  | zero => rfl
  | succ n => rw [coreMoves, coreMove_host _ (atHost_control s)]

theorem loopEndsIn_of_coreMoves {n : Nat} {s t : State} (h : coreMoves n (.atLoopTest s) = .next (.atHost t)) :
    LoopEndsIn s t := by
  induction n generalizing s with
  | zero =>
    have hsession : Session.atLoopTest s = Session.atHost t := by simpa [coreMoves] using h
    have hs : s = t := congrArg Session.state hsession
    have hcontrol : (Session.atLoopTest s).control = .host := congrArg Session.control hsession
    exact hs ▸ .done s ((atLoopTest_control_host s).mp hcontrol)
  | succ n ih =>
    by_cases hrun : s.mcu.runState = .running
    · rw [coreMoves_of_running n hrun] at h
      exact .turn s t hrun (ih h)
    · rw [atLoopTest_of_not_running hrun, coreMoves_atHost] at h
      cases h
      exact .done _ hrun

theorem LoopEndsIn.exists_coreMoves {s t : State} (h : LoopEndsIn s t) :
    ∃ n, coreMoves n (.atLoopTest s) = .next (.atHost t) := by
  induction h with
  | done s hs => exact ⟨0, by rw [atLoopTest_of_not_running hs, coreMoves_atHost]⟩
  | turn s t hrun _ ih =>
    obtain ⟨n, hn⟩ := ih
    exact ⟨n + 1, by rw [coreMoves_of_running n hrun, hn]⟩

/-- Settles O57: the host's `run` puts the core at the test of the loop, and its moves are the turns. -/
theorem runReturnsAtItsEnd : Obligations.RunReturnsAtItsEnd := by
  unfold Obligations.RunReturnsAtItsEnd
  intro s t
  rw [runEndsIn_iff]
  constructor
  · intro h
    obtain ⟨n, hn⟩ := h.exists_coreMoves
    exact ⟨.atLoopTest (beginRun s), n, rfl, hn⟩
  · rintro ⟨c, n, hmove, hn⟩
    cases hmove
    exact loopEndsIn_of_coreMoves hn

end Sys2Proof.Machine
end

section
/-! The invariant (10_state.md, 60_exceptions.md section 2, 70_reset_and_hazards.md): each change of the core that a turn
or a move of the host makes keeps it, and a run in progress needs no more of its status than to have no fault record. -/

namespace Sys2Proof.Machine

variable {p : Params}

/-! ### The changes that surround an instruction -/

theorem Mcu.Inv.fault_eq_none {m : Mcu p} (hinv : m.Inv) (h : m.runState ≠ .faulted) : m.fault = none := by
  cases hfault : m.fault with
  | none => rfl
  | some f => exact absurd (hinv.faultIff.mp (by rw [hfault]; rfl)) h

/-- While RUNNING the fields on the fault record, HALTED and IDLE ask only that there is no record. -/
theorem inv_of_running {m : Mcu p} (hrun : m.runState = .running) (hfault : m.fault = none)
    (memWf : Memory.wf m.mem = true) (stackFits : ∀ d, p.stackDepth = some d → m.stack.length ≤ d)
    (unusedZero : m.x2 = 0#p.xlen ∧ m.x3 = 0#p.xlen) (narrowStack : p.xlen = 8 → ∀ e ∈ m.stack, e.toNat ≤ 257)
    (narrowPc : p.xlen = 8 → m.pc.toNat ≤ 257) (idNonzero : m.id.toNat ≠ 0) : m.Inv where
  memWf := memWf
  stackFits := stackFits
  faultIff := by simp [hrun, hfault]
  faultPrecise := by simp [hfault]
  haltedPc := by simp [hrun]
  idlePc := by simp [hrun]
  unusedZero := unusedZero
  narrowStack := narrowStack
  narrowPc := narrowPc
  idNonzero := idNonzero

theorem inv_startRun {m : Mcu p} (hinv : m.Inv) : m.startRun.Inv :=
  inv_of_running rfl rfl hinv.memWf hinv.stackFits hinv.unusedZero hinv.narrowStack (by simp) hinv.idNonzero

theorem inv_begun {m : Mcu p} (hinv : m.Inv) : m.begun.Inv := by
  unfold Mcu.begun
  split_ifs
  · exact hinv
  · exact inv_startRun hinv

/-- A run in progress latches a byte. -/
theorem inv_latch {m : Mcu p} (hinv : m.Inv) (hrun : m.runState = .running) (b : Byte) : (m.latch b).Inv :=
  inv_of_running hrun (hinv.fault_eq_none (by simp [hrun])) hinv.memWf hinv.stackFits hinv.unusedZero hinv.narrowStack
    hinv.narrowPc hinv.idNonzero

/-- The halt of a run past memory. -/
theorem inv_halt {m : Mcu p} (hinv : m.Inv) (hrun : m.runState = .running) (hpc : memSize ≤ m.pc.toNat) :
    m.halt.Inv where
  memWf := hinv.memWf
  stackFits := hinv.stackFits
  faultIff := by simp [hinv.fault_eq_none (by simp [hrun])]
  faultPrecise := by simp [hinv.fault_eq_none (by simp [hrun])]
  haltedPc := fun _ => hpc
  idlePc := by simp
  unusedZero := hinv.unusedZero
  narrowStack := hinv.narrowStack
  narrowPc := hinv.narrowPc
  idNonzero := hinv.idNonzero

/-- A fault whose cause is present. -/
theorem inv_raise {m : Mcu p} (hinv : m.Inv) {f : FaultRecord} (hf : m.FaultAt f) :
    (m.raise f.kind f.fopcode).Inv where
  memWf := hinv.memWf
  stackFits := hinv.stackFits
  faultIff := by simp
  faultPrecise := fun g hg => by
    rw [raise_fault, fpc_of_faultAt hf] at hg
    cases hg
    exact hf
  haltedPc := by simp
  idlePc := by simp
  unusedZero := hinv.unusedZero
  narrowStack := hinv.narrowStack
  narrowPc := hinv.narrowPc
  idNonzero := hinv.idNonzero

theorem inv_setMem {m : Mcu p} (hinv : m.Inv) {mem : Memory} (hmem : Memory.wf mem = true) : (m.setMem mem).Inv :=
  { hinv with memWf := hmem }

theorem inv_fresh (id : BitVec p.idWidth) (sensor : Sensor) (hid : id.toNat ≠ 0) : (Mcu.fresh p id sensor).Inv where
  memWf := rfl
  stackFits := fun d _ => Nat.zero_le d
  faultIff := by simp [Mcu.fresh]
  faultPrecise := by simp [Mcu.fresh]
  haltedPc := by simp [Mcu.fresh]
  idlePc := by simp [Mcu.fresh]
  unusedZero := ⟨rfl, rfl⟩
  narrowStack := by simp [Mcu.fresh]
  narrowPc := by simp [Mcu.fresh]
  idNonzero := hid

/-! ### An instruction that completes -/

/-- The stack after an instruction that completes: as it was, with a return address or the accumulator pushed where
there is room, or with its top popped. -/
theorem effect_stack_cases (i : Instr) (m : Mcu p) (hpc : m.pc.toNat < memSize) (hrun : m.runState ≠ .faulted)
    (hok : (effect i m).runState ≠ .faulted) :
    (effect i m).stack = m.stack ∨
      (p.stackDepth ≠ some m.stack.length ∧
        ∃ e, (effect i m).stack = e :: m.stack ∧ (e.toNat = m.pc.toNat + 2 ∨ e.toNat = m.x0.toNat)) ∨
      ∃ e, m.stack = e :: (effect i m).stack := by
  have ⟨_, hstack⟩ := fourInstructionsTouchTheStack i p m _ (exec_eq_effect i m hpc) hrun
  replace hstack := hstack hok
  cases i with
  | call target =>
    obtain ⟨e, hpush, he⟩ := hstack
    exact .inr (.inl ⟨room_of_call_ok hok, e, hpush, .inl he⟩)
  | push =>
    obtain ⟨e, hpush, he⟩ := hstack
    exact .inr (.inl ⟨room_of_push_ok hok, e, hpush, .inr he⟩)
  | ret => exact .inr (.inr ⟨_, hstack⟩)
  | pop =>
    obtain ⟨e, hpop, -⟩ := hstack
    exact .inr (.inr ⟨e, hpop⟩)
  | nop | inc | print | add | loadimm | beqz _ | load _ | sub | sense | nopD | nopE | nopF => exact .inl hstack

/-- The pc after an instruction that completes: at most two bytes on, a target, or the popped entry. -/
theorem effect_pc_cases (i : Instr) (m : Mcu p) (hpc : m.pc.toNat < memSize) (hrun : m.runState ≠ .faulted)
    (hok : (effect i m).runState ≠ .faulted) :
    (effect i m).pc.toNat ≤ m.pc.toNat + 2 ∨ (∃ target : Nibble, (effect i m).pc.toNat = target.toNat) ∨
      ∃ rest, m.stack = (effect i m).pc :: rest := by
  have ⟨_, hnext⟩ := nextPcHasFourSources i p m _ (exec_eq_effect i m hpc) hrun
  replace hnext := hnext hok
  cases i with
  | loadimm => exact .inl (Nat.le_of_eq hnext)
  | beqz target =>
    by_cases hzero : m.x0.toNat = 0
    · exact .inr (.inl ⟨target, hnext.trans (if_pos hzero)⟩)
    · exact .inl ((Nat.le_of_eq (hnext.trans (if_neg hzero))).trans (Nat.le_succ _))
  | call target => exact .inr (.inl ⟨target, hnext⟩)
  | ret => exact .inr (.inr hnext)
  | nop | inc | print | add | load _ | sub | push | pop | sense | nopD | nopE | nopF =>
    exact .inl ((Nat.le_of_eq hnext).trans (Nat.le_succ _))

/-- What is pushed has room. -/
theorem effect_stackFits {i : Instr} {m : Mcu p} (hinv : m.Inv) (hpc : m.pc.toNat < memSize)
    (hrun : m.runState ≠ .faulted) (hok : (effect i m).runState ≠ .faulted) (d : Nat) (hd : p.stackDepth = some d) :
    (effect i m).stack.length ≤ d := by
  have hfits := hinv.stackFits d hd
  obtain hkept | ⟨hroom, e, hpush, -⟩ | ⟨e, hpop⟩ := effect_stack_cases i m hpc hrun hok
  · rwa [hkept]
  · have hne : m.stack.length ≠ d := fun hfull => hroom (hfull ▸ hd)
    rw [hpush, List.length_cons]
    omega
  · rw [hpop, List.length_cons] at hfits
    omega

/-- With 8-bit registers what is pushed is a return address, at most 257, or an accumulator, at most 255. -/
theorem effect_narrowStack {i : Instr} {m : Mcu p} (hinv : m.Inv) (hpc : m.pc.toNat < memSize)
    (hrun : m.runState ≠ .faulted) (hok : (effect i m).runState ≠ .faulted) (hnarrow : p.xlen = 8) :
    ∀ e ∈ (effect i m).stack, e.toNat ≤ 257 := by
  intro e he
  have hinside : m.pc.toNat < 256 := hpc
  have hentries := hinv.narrowStack hnarrow
  obtain hkept | ⟨-, v, hpush, hv⟩ | ⟨v, hpop⟩ := effect_stack_cases i m hpc hrun hok
  · exact hentries e (hkept ▸ he)
  · rw [hpush] at he
    obtain rfl | he := List.mem_cons.mp he
    · have hx0 := m.x0.isLt
      have hwidth : 2 ^ p.xlen = 256 := by rw [hnarrow]; rfl
      omega
    · exact hentries e he
  · exact hentries e (hpop ▸ List.mem_cons_of_mem v he)

/-- With 8-bit registers every source of the pc is at most 257. -/
theorem effect_narrowPc {i : Instr} {m : Mcu p} (hinv : m.Inv) (hpc : m.pc.toNat < memSize)
    (hrun : m.runState ≠ .faulted) (hok : (effect i m).runState ≠ .faulted) (hnarrow : p.xlen = 8) :
    (effect i m).pc.toNat ≤ 257 := by
  have hinside : m.pc.toNat < 256 := hpc
  obtain hnear | ⟨target, htarget⟩ | ⟨rest, hpop⟩ := effect_pc_cases i m hpc hrun hok
  · omega
  · have := target.isLt
    omega
  · exact hinv.narrowStack hnarrow _ (hpop ▸ List.mem_cons_self)

/-- An instruction of a run that completes keeps the invariant. -/
theorem inv_effect {i : Instr} {m : Mcu p} (hinv : m.Inv) (hrun : m.runState = .running) (hpc : m.pc.toNat < memSize)
    (hcompletes : m.Completes (effect i m)) : (effect i m).Inv := by
  have hnotFaulted : m.runState ≠ .faulted := by simp [hrun]
  have hok : (effect i m).runState ≠ .faulted := by rwa [hcompletes.runState]
  exact inv_of_running (hcompletes.runState.trans hrun) (hcompletes.fault.trans (hinv.fault_eq_none hnotFaulted))
    (hcompletes.mem ▸ hinv.memWf) (effect_stackFits hinv hpc hnotFaulted hok)
    (by rw [hcompletes.x2, hcompletes.x3]; exact hinv.unusedZero) (effect_narrowStack hinv hpc hnotFaulted hok)
    (effect_narrowPc hinv hpc hnotFaulted hok) (hcompletes.id ▸ hinv.idNonzero)

/-! ### The turn, the step, the moves of the host and of the core -/

/-- A turn of a run keeps the invariant, whichever of its three cases it is. -/
theorem inv_turn {m : Mcu p} (hinv : m.Inv) (hrun : m.runState = .running) : m.turn.Inv := by
  have hlatched := inv_latch hinv hrun m.fetchedByte
  obtain ⟨hpc, hhalt⟩ | ⟨-, f, hf, hraise⟩ | ⟨hpc, heffect, hcompletes⟩ := turn_cases m hrun
  · rw [hhalt]
    exact inv_halt hinv hrun hpc
  · have ⟨_, hopcode, _⟩ := hf
    have hopcode' : opcodeOf m.fetchedByte = f.fopcode := hopcode.symm
    rw [hraise, hopcode']
    exact inv_raise hlatched hf
  · rw [heffect] at hcompletes ⊢
    exact inv_effect hlatched hrun hpc hcompletes

/-- Settles O50: a step is a turn of the run in progress or of the run it starts. -/
theorem stepKeepsInvariant : Obligations.StepKeepsInvariant := by
  unfold Obligations.StepKeepsInvariant
  rintro ⟨p, m⟩ t ⟨hvalid, hinv⟩ hstep
  rw [step_eq_turn] at hstep
  cases hstep
  exact ⟨hvalid, inv_turn (inv_begun hinv) (begun_runState m)⟩

theorem inv_beginRun {s : State} (hinv : s.Inv) : (beginRun s).Inv := by
  obtain ⟨p, m⟩ := s
  obtain ⟨hvalid, hm⟩ := hinv
  rw [beginRun_eq_begun]
  exact ⟨hvalid, inv_begun hm⟩

theorem inv_hostLoad {s : State} (hinv : s.Inv) (program : List Byte) : (hostLoad program s).2.Inv := by
  have ⟨hvalid, hm⟩ := hinv
  obtain hsame | hloaded := hostLoad_state program s
  · rwa [hsame]
  · rw [hloaded]
    exact ⟨hvalid, inv_setMem hm (writeAll_wf program s.mcu.mem 0 hm.memWf)⟩

theorem inv_atHost {s : State} (hinv : s.Inv) : (Session.atHost s).Inv := ⟨hinv, fun hcontrol => nomatch hcontrol⟩

theorem inv_atLoopTest {s : State} (hinv : s.Inv) : (Session.atLoopTest s).Inv :=
  ⟨hinv, (atLoopTest_control_core s).mp⟩

theorem inv_hostMove {op : HostOp} {c d : Session} (hinv : c.Inv) (hmove : hostMove op c = some (.next d)) : d.Inv := by
  have ⟨hvalid, hm⟩ := hinv.state
  have ⟨_, hop⟩ := hostMove_eq_next op c d hmove
  cases op with
  | reset =>
    rw [hop]
    exact inv_atHost ⟨hvalid, inv_fresh _ _ hm.idNonzero⟩
  | load program =>
    rw [hop]
    exact inv_atHost (inv_hostLoad hinv.state program)
  | step =>
    obtain ⟨t, hstep, rfl⟩ := hop
    exact inv_atHost (stepKeepsInvariant _ t hinv.state hstep)
  | run =>
    rw [hop]
    exact inv_atLoopTest (inv_beginRun hinv.state)

theorem inv_coreMove {c d : Session} (hinv : c.Inv) (hmove : coreMove c = some (.next d)) : d.Inv := by
  have ⟨hvalid, hm⟩ := hinv.state
  obtain ⟨-, ⟨hrun, t, hstep, rfl⟩ | ⟨-, rfl⟩⟩ := coreMove_eq_next c d hmove
  · rw [stepInstruction_eq_next] at hstep
    cases hstep
    exact inv_atLoopTest ⟨hvalid, inv_turn hm hrun⟩
  · exact inv_atHost hinv.state

/-- Settles O55: the moves leave a fresh unit, a loaded one, a step or the start of a run, and the core's are turns. -/
theorem hostAndCoreMovesKeepInvariant : Obligations.HostAndCoreMovesKeepInvariant := by
  unfold Obligations.HostAndCoreMovesKeepInvariant
  exact ⟨fun p id sensor hvalid hid => inv_atHost ⟨hvalid, inv_fresh id sensor hid⟩,
    fun op c d hinv hmove => inv_hostMove hinv hmove, fun c d hinv hmove => inv_coreMove hinv hmove⟩

/-- Settles O51, by induction on the moves that reach the unit. -/
theorem reachableStatesMeetInvariant : Obligations.ReachableStatesMeetInvariant := by
  unfold Obligations.ReachableStatesMeetInvariant
  intro c hreachable
  induction hreachable with
  | fresh p id sensor hvalid hid => exact inv_atHost ⟨hvalid, inv_fresh id sensor hid⟩
  | host c d op _ hmove ih => exact inv_hostMove ih hmove
  | core c d _ hmove ih => exact inv_coreMove ih hmove

/-- Settles O49: the state after reset is a fresh unit. -/
theorem resetMeetsInvariant : Obligations.ResetMeetsInvariant := by
  unfold Obligations.ResetMeetsInvariant
  exact ⟨by decide, inv_fresh _ _ (by decide)⟩

end Sys2Proof.Machine
end

section
/-! Memory and the host operations on it (20_memory.md section 1, 10_state.md section 9, 70_reset_and_hazards.md
section 2): the canonical form is determined by the cells, `load` writes the cells of its program, inspection reads the state. -/

namespace Sys2Proof.Machine

variable {p : Params}

/-! ### The canonical form -/

theorem wfFrom_cons_iff (lo k : Nat) (v : Byte) (rest : Memory) :
    Memory.wfFrom lo ((k, v) :: rest) = true ↔
      lo ≤ k ∧ k < memSize ∧ v ≠ resetByte ∧ Memory.wfFrom (k + 1) rest = true := by
  simp [Memory.wfFrom, and_assoc]

theorem lookup_cons_same (k : Nat) (v : Byte) (rest : Memory) : Memory.lookup ((k, v) :: rest) k = v := by
  simp [Memory.lookup]

theorem lookup_cons_other {k a : Nat} (v : Byte) (rest : Memory) (h : a ≠ k) :
    Memory.lookup ((k, v) :: rest) a = Memory.lookup rest a := by
  simp [Memory.lookup, h.symm]

/-- A cell below the first address listed is not listed. -/
theorem lookup_below {m : Memory} {lo a : Nat} (h : Memory.wfFrom lo m = true) (ha : a < lo) :
    Memory.lookup m a = resetByte := by
  induction m generalizing lo with
  | nil => rfl
  | cons c rest ih =>
    obtain ⟨k, v⟩ := c
    obtain ⟨hlo, -, -, hrest⟩ := (wfFrom_cons_iff lo k v rest).mp h
    rw [lookup_cons_other v rest (by omega)]
    exact ih hrest (by omega)

/-- The head of one memory in canonical form is not below that of the other where their cells agree, for it lists what
is not the reset content. -/
theorem head_le_of_lookup_eq {lo k : Nat} {v : Byte} {rest m : Memory} (h : Memory.wfFrom lo ((k, v) :: rest) = true)
    (heq : Memory.lookup ((k, v) :: rest) k = Memory.lookup m k) {lo' : Nat} (hm : Memory.wfFrom lo' m = true) :
    lo' ≤ k := by
  by_contra hbelow
  obtain ⟨-, -, hv, -⟩ := (wfFrom_cons_iff lo k v rest).mp h
  rw [lookup_cons_same, lookup_below hm (Nat.lt_of_not_le hbelow)] at heq
  exact hv heq

/-- Memories in canonical form with equal cells are equal: their heads are the first cell that is not reset. -/
theorem eq_of_lookup_eq {m m' : Memory} {lo lo' : Nat} (h : Memory.wfFrom lo m = true)
    (h' : Memory.wfFrom lo' m' = true) (heq : ∀ a, a < memSize → Memory.lookup m a = Memory.lookup m' a) : m = m' := by
  induction m generalizing m' lo lo' with
  | nil =>
    cases m' with
    | nil => rfl
    | cons c rest' =>
      obtain ⟨k, v⟩ := c
      obtain ⟨-, hk, hv, -⟩ := (wfFrom_cons_iff lo' k v rest').mp h'
      have hcell := heq k hk
      rw [lookup_cons_same] at hcell
      exact absurd hcell.symm hv
  | cons c rest ih =>
    obtain ⟨k, v⟩ := c
    obtain ⟨-, hk, hv, hrest⟩ := (wfFrom_cons_iff lo k v rest).mp h
    cases m' with
    | nil =>
      have hcell := heq k hk
      rw [lookup_cons_same] at hcell
      exact absurd hcell hv
    | cons c' rest' =>
      obtain ⟨k', v'⟩ := c'
      obtain ⟨-, hk', hv', hrest'⟩ := (wfFrom_cons_iff lo' k' v' rest').mp h'
      have hfrom : Memory.wfFrom k ((k, v) :: rest) = true := (wfFrom_cons_iff k k v rest).mpr ⟨le_rfl, hk, hv, hrest⟩
      have hfrom' : Memory.wfFrom k' ((k', v') :: rest') = true :=
        (wfFrom_cons_iff k' k' v' rest').mpr ⟨le_rfl, hk', hv', hrest'⟩
      obtain rfl : k = k' := Nat.le_antisymm (head_le_of_lookup_eq hfrom' (heq k' hk').symm hfrom)
        (head_le_of_lookup_eq hfrom (heq k hk) hfrom')
      have hvalue : v = v' := by simpa [lookup_cons_same] using heq k hk
      have hothers : rest = rest' := by
        refine ih hrest hrest' fun a ha => ?_
        by_cases hak : a = k
        · rw [lookup_below hrest (by omega), lookup_below hrest' (by omega)]
        · simpa only [lookup_cons_other _ _ hak] using heq a ha
      rw [hvalue, hothers]

/-- Settles O48: cells that read the same are equal in the two lists. -/
theorem canonicalMemoriesAreEqual : Obligations.CanonicalMemoriesAreEqual := by
  unfold Obligations.CanonicalMemoriesAreEqual
  intro m m' h h' heq
  refine eq_of_lookup_eq h h' fun a ha => ?_
  simpa [read_of_lt _ a ha] using heq a

/-! ### reset and load -/

/-- Settles O43: the fresh unit keeps the identifier and the sensor it is given. -/
theorem resetGivesFreshUnit : Obligations.ResetGivesFreshUnit := by
  unfold Obligations.ResetGivesFreshUnit
  intro p m
  exact ⟨Mcu.fresh p m.id m.sensor, rfl, fun a ha => read_nil a ha, by simp [Mcu.fresh]⟩

/-- Settles O44: the state after reset is a fresh unit, written out. -/
theorem resetStateIsFresh : Obligations.ResetStateIsFresh := by
  unfold Obligations.ResetStateIsFresh
  exact ⟨rfl, by decide, by decide, fun a ha => read_nil a ha, rfl, rfl, rfl, rfl, rfl, rfl, rfl, rfl, rfl, rfl⟩

/-- Settles O46: the two tests of `load` come before the write. -/
theorem loadRefusedChangesNothing : Obligations.LoadRefusedChangesNothing := by
  unfold Obligations.LoadRefusedChangesNothing
  refine fun program s => ⟨fun hwait hlong => ?_, fun hrun => ?_⟩
  · have hfits : ¬ programFits program = true := by
      rw [programFits, decide_eq_true_eq]
      exact Nat.not_le.mpr hlong
    rw [hostLoad, if_neg hwait, if_neg hfits]
  · rw [hostLoad, if_pos hrun]

/-- Writing below `b` leaves the cell `b` alone. -/
theorem read_writeAll_above (bytes : List Byte) (m : Memory) (a b : Nat) (h : a + bytes.length ≤ b) :
    Memory.read (Memory.writeAll m a bytes) b = Memory.read m b := by
  induction bytes generalizing m a with
  | nil => rfl
  | cons v rest ih =>
    rw [List.length_cons] at h
    rw [Memory.writeAll, ih _ _ (by omega), read_write_other m a b v (by omega)]

/-- The cells written read their bytes. -/
theorem read_writeAll_inside (bytes : List Byte) (m : Memory) (a i : Nat) (hm : Memory.wf m = true)
    (hfits : a + bytes.length ≤ memSize) (hi : i < bytes.length) :
    Memory.read (Memory.writeAll m a bytes) (a + i) = some bytes[i] := by
  induction bytes generalizing m a i with
  | nil => exact absurd hi (Nat.not_lt_zero i)
  | cons v rest ih =>
    rw [List.length_cons] at hfits hi
    rw [Memory.writeAll]
    cases i with
    | zero =>
      show Memory.read (Memory.writeAll (Memory.write m a v) (a + 1) rest) a = some v
      rw [read_writeAll_below rest _ (a + 1) a (Nat.lt_succ_self a), read_write_same m a v hm (by omega)]
    | succ i =>
      have hrest := ih (Memory.write m a v) (a + 1) i (write_wf m a v hm) (by omega) (by omega)
      rwa [Nat.add_assoc, Nat.add_comm 1 i] at hrest

/-- Settles O45: `load` writes the program from address 0 on, and a cell is one it writes or one above. -/
theorem loadCopiesTheProgram : Obligations.LoadCopiesTheProgram := by
  unfold Obligations.LoadCopiesTheProgram
  intro program p m hwf hwait hlength
  have hfits : programFits program = true := by
    rw [programFits, decide_eq_true_eq]
    exact hlength
  refine ⟨m.setMem (Memory.writeAll m.mem 0 program), by rw [hostLoad, if_neg hwait, if_pos hfits], rfl,
    writeAll_wf program m.mem 0 hwf, fun a _ => ?_⟩
  rw [setMem_mem]
  split_ifs with ha
  · have hcell := read_writeAll_inside program m.mem 0 a hwf (by rwa [Nat.zero_add]) ha
    rwa [Nat.zero_add] at hcell
  · exact read_writeAll_above program m.mem 0 a (by omega)

/-! ### Inspection -/

theorem runState_code_iff (r : RunState) :
    (r.code = 0 ↔ r = .idle) ∧ (r.code = 1 ↔ r = .running) ∧ (r.code = 2 ↔ r = .halted) ∧
      (r.code = 3 ↔ r = .faulted) := by
  cases r <;> decide

theorem faultKind_code_iff (k : FaultKind) :
    k.code ≠ 0 ∧ (k.code = 1 ↔ k = .addressOutOfRange) ∧ (k.code = 2 ↔ k = .stackUnderflow) ∧
      (k.code = 3 ↔ k = .stackOverflow) := by
  cases k <;> decide

theorem faultKindField_of_some {m : Mcu p} {f : FaultRecord} (h : m.fault = some f) :
    m.faultKindField = f.kind.code := by
  simp [Mcu.faultKindField, h]

/-- The field shows NONE exactly when there is no record. -/
theorem faultKindField_eq_zero_iff (m : Mcu p) : m.faultKindField = 0 ↔ m.fault = none := by
  cases h : m.fault with
  | none => simp [Mcu.faultKindField, h]
  | some f =>
    have ⟨hnonzero, _⟩ := faultKind_code_iff f.kind
    simpa [faultKindField_of_some h] using hnonzero

/-- The field shows a fault exactly when the core is FAULTED. -/
theorem faultKindField_ne_zero_iff {m : Mcu p} (hinv : m.Inv) : m.faultKindField ≠ 0 ↔ m.runState = .faulted := by
  rw [← hinv.faultIff, Option.isSome_iff_ne_none]
  exact not_congr (faultKindField_eq_zero_iff m)

/-- The record's pc, where the fields of the record are shown. -/
theorem fault_fields_of_some {m : Mcu p} (hinv : m.Inv) {f : FaultRecord} (h : m.fault = some f) :
    m.faultPcField = f.fpc ∧ m.faultPcField.toNat = m.pc.toNat ∧ m.faultOpcodeField = f.fopcode := by
  have hpc : m.faultPcField = f.fpc := by simp [Mcu.faultPcField, h]
  have ⟨hfpc, _⟩ := hinv.faultPrecise f h
  exact ⟨hpc, hpc ▸ hfpc, by simp [Mcu.faultOpcodeField, h]⟩

/-- Settles O47: each field shown is a field of the state or its number. -/
theorem inspectionShowsState : Obligations.InspectionShowsState := by
  unfold Obligations.InspectionShowsState
  rintro ⟨p, m⟩ ⟨-, hinv⟩
  obtain ⟨hidle, hrunning, hhalted, hfaulted⟩ := runState_code_iff m.runState
  obtain ⟨hx2 : m.x2 = 0#p.xlen, hx3 : m.x3 = 0#p.xlen⟩ := hinv.unusedZero
  refine ⟨fun a ha => ?_, ?_, ?_, rfl, rfl, ?_, rfl, rfl, hidle, hrunning, hhalted, hfaulted,
    faultKindField_eq_zero_iff m, fun f hf => ?_, (faultKindField_ne_zero_iff hinv).trans hfaulted.symm,
    fun f hf => fault_fields_of_some hinv hf⟩
  · rw [read_of_lt m.mem a ha]
    simp [inspect, ha]
  · simp [inspect]
  · simp [inspect, hx2, hx3]
  · simp [inspect]
  · have ⟨_, hkinds⟩ := faultKind_code_iff f.kind
    rwa [← faultKindField_of_some hf] at hkinds

end Sys2Proof.Machine
end

section
/-! A core and its host (70_reset_and_hazards.md section 2): whoever has the control has moves that go on, the other has
none, and no move changes the identifier of the unit. -/

namespace Sys2Proof.Machine

/-! ### Moves of one unit -/

/-- While the host has the control each of its transactions goes on, and `run` alone hands the control to the core. -/
theorem hostMove_goes_on (op : HostOp) {c : Session} (h : c.control = .host) :
    ∃ d, hostMove op c = some (.next d) ∧ (d.control = .core ↔ op = .run) := by
  rw [hostMove_host op c h]
  cases op with
  | reset => exact ⟨_, rfl, by simp⟩
  | load program => exact ⟨_, rfl, by simp⟩
  | step =>
    simp only [hostStep_eq_next]
    exact ⟨_, rfl, by simp⟩
  | run => exact ⟨_, rfl, by simp [beginRun_runState]⟩

/-- A move of the core in a run is one turn. -/
theorem coreMove_of_running {c : Session} (h : c.control = .core) (hrun : c.state.mcu.runState = .running) :
    coreMove c = some (.next (.atLoopTest c.state.turn)) := by
  rw [coreMove_running c h hrun, stepInstruction_eq_next]
  rfl

/-- While the core has the control it goes on. -/
theorem coreMove_goes_on {c : Session} (h : c.control = .core) : ∃ d, coreMove c = some (.next d) := by
  by_cases hrun : c.state.mcu.runState = .running
  · exact ⟨_, coreMove_of_running h hrun⟩
  · exact ⟨.atHost c.state, by simp [coreMove, h, hrun]⟩

/-- A turn hands the control back exactly when the run has ended with it. -/
theorem atLoopTest_turn_control {s : State} (hrun : s.mcu.runState = .running) :
    (Session.atLoopTest s.turn).control = .host ↔ s.turn.ended = true := by
  rw [atLoopTest_control_host]
  exact ⟨ended_of_not_running (turn_not_idle s.mcu hrun), not_running_of_ended⟩

/-- Settles O56: the control decides which of the two has moves. -/
theorem hostHasNoMoveDuringRun : Obligations.HostHasNoMoveDuringRun := by
  unfold Obligations.HostHasNoMoveDuringRun
  refine fun c => ⟨fun hcore => ⟨fun op => hostMove_core op c hcore, by simp [Session.inspect, hcore],
    fun M source message => by simp [Session.receive, hcore], fun hrun => ?_⟩, fun hhost => ?_⟩
  · exact ⟨_, coreMove_of_running hcore hrun, stepInstruction_eq_next c.state, atLoopTest_turn_control hrun⟩
  · exact ⟨coreMove_host c hhost, by simp [Session.inspect, hhost], fun op => hostMove_goes_on op hhost⟩

/-! ### The identifier -/

theorem turn_unitId (s : State) : s.turn.mcu.id.toNat = s.mcu.id.toNat := congrArg BitVec.toNat (turn_id s.mcu)

theorem beginRun_unitId (s : State) : (beginRun s).mcu.id.toNat = s.mcu.id.toNat := by
  obtain ⟨p, m⟩ := s
  rw [beginRun_eq_begun]
  exact congrArg BitVec.toNat (begun_id m)

theorem hostLoad_unitId (program : List Byte) (s : State) :
    (hostLoad program s).2.mcu.id.toNat = s.mcu.id.toNat := by
  obtain hsame | hloaded := hostLoad_state program s
  · rw [hsame]
  · rw [hloaded]
    rfl

theorem hostMove_unitId {op : HostOp} {c d : Session} (h : hostMove op c = some (.next d)) : d.unitId = c.unitId := by
  have ⟨_, hop⟩ := hostMove_eq_next op c d h
  cases op with
  | reset =>
    rw [hop]
    rfl
  | load program =>
    rw [hop]
    exact hostLoad_unitId program c.state
  | step =>
    obtain ⟨t, hstep, rfl⟩ := hop
    rw [hostStep_eq_next] at hstep
    cases hstep
    exact (turn_unitId _).trans (beginRun_unitId c.state)
  | run =>
    rw [hop]
    exact beginRun_unitId c.state

theorem coreMove_unitId {c d : Session} (h : coreMove c = some (.next d)) : d.unitId = c.unitId := by
  obtain ⟨-, ⟨-, t, hstep, rfl⟩ | ⟨-, rfl⟩⟩ := coreMove_eq_next c d h
  · rw [stepInstruction_eq_next] at hstep
    cases hstep
    exact turn_unitId c.state
  · rfl

end Sys2Proof.Machine
end

section
/-! The platform (60_exceptions.md section 8): a move replaces one unit, a registration one entry of the directory, and
`send` and `broadcast` add receipts and nothing else. -/

namespace Sys2Proof.Machine

variable {M : Type}

/-! ### The directory -/

theorem lookup_filter_same (entries : List (Nat × Nat)) (id : Nat) :
    (entries.filter fun e => e.1 != id).lookup id = none := by
  rw [List.lookup_eq_none_iff]
  intro e he
  have hne := (List.mem_filter.mp he).2
  rwa [bne_comm] at hne

theorem lookup_filter_other (entries : List (Nat × Nat)) {id k : Nat} (hk : k ≠ id) :
    (entries.filter fun e => e.1 != id).lookup k = entries.lookup k := by
  induction entries with
  | nil => rfl
  | cons e entries ih =>
    by_cases he : e.1 = id
    · have hke : (k == e.1) = false := by simpa [he] using hk
      rw [List.filter_cons_of_neg (by simp [he]), ih, List.lookup_cons, hke]
    · rw [List.filter_cons_of_pos (by simp [he]), List.lookup_cons, List.lookup_cons, ih]

/-- The reference entered is the one found. -/
theorem find_enter_same (net : Network) (id ref : Nat) : (net.enter id ref).find id = some ref := by
  simp [Network.find, Network.enter, List.lookup_append, lookup_filter_same]

theorem find_enter_other (net : Network) {id k : Nat} (ref : Nat) (hk : k ≠ id) :
    (net.enter id ref).find k = net.find k := by
  have hlast : List.lookup k [(id, ref)] = none := by simpa [List.lookup_eq_none_iff] using hk
  rw [Network.find, Network.enter, List.lookup_append, lookup_filter_other _ hk, hlast, Option.or_none, Network.find]

/-- Entering a reference removes what stood under its key, so keys stay unique. -/
theorem keysUnique_enter (net : Network) (id ref : Nat) (h : (net.directory.map Prod.fst).Nodup) :
    ((net.enter id ref).directory.map Prod.fst).Nodup := by
  have hkept : ((net.directory.filter fun e => e.1 != id).map Prod.fst).Nodup :=
    h.sublist (List.filter_sublist.map _)
  rw [Network.enter, List.map_append, List.nodup_append]
  refine ⟨hkept, by simp, ?_⟩
  simp

theorem mem_enter_iff (net : Network) (id ref : Nat) (e : Nat × Nat) :
    e ∈ (net.enter id ref).directory ↔ (e ∈ net.directory ∧ e.1 ≠ id) ∨ e = (id, ref) := by
  simp [Network.enter]

/-- What is found under a key is an entry of the directory. -/
theorem mem_directory_of_find {net : Network} {k ref : Nat} (h : net.find k = some ref) : (k, ref) ∈ net.directory := by
  obtain ⟨before, after, hdirectory, -⟩ := List.lookup_eq_some_iff.mp h
  rw [hdirectory]
  exact List.mem_append_right before List.mem_cons_self

/-- A key of the directory is one under which something is found. -/
theorem find_isSome_iff (net : Network) (k : Nat) : (net.find k).isSome = true ↔ k ∈ net.directory.map Prod.fst := by
  rw [Network.find, List.lookup_isSome_iff, List.mem_map]
  simp only [beq_iff_eq, @eq_comm _ k]

theorem mem_recipients_iff (net : Network) (source k : Nat) :
    k ∈ net.recipients source ↔ k ≠ source ∧ (net.find k).isSome = true := by
  rw [Network.recipients, List.mem_filter, find_isSome_iff, bne_iff_ne, and_comm]

/-! ### Moves -/

theorem unitMoved_setUnit {n : Platform M} {ref : Nat} {c : Session} (h : n.units[ref]? = some c) (d : Session) :
    n.UnitMoved (n.setUnit ref d) ref c d := by
  have ⟨hplace, _⟩ := List.getElem?_eq_some_iff.mp h
  have hafter : (n.setUnit ref d).units[ref]? = some d := List.getElem?_set_self hplace
  exact
    { before := h
      after := hafter
      others := fun j hj => List.getElem?_set_ne (Ne.symm hj)
      network := rfl
      receipts := rfl
      found := fun id hid => by rw [Platform.unitOf, setUnit_network, hid, Option.bind_some, hafter] }

theorem control_of_hostHasControl {n : Platform M} {ref : Nat} {c : Session} (hhost : n.hostHasControl = true)
    (h : n.units[ref]? = some c) : c.control = .host :=
  (hostHasControl_iff n).mp hhost c (List.mem_of_getElem? h)

theorem platform_hostMove_of_next {n : Platform M} {ref : Nat} {op : HostOp} {c d : Session}
    (hhost : n.hostHasControl = true) (h : n.units[ref]? = some c) (hmove : hostMove op c = some (.next d)) :
    n.hostMove ref op = some (.next (n.setUnit ref d)) := by
  simp [Platform.hostMove, hhost, h, hmove, mapNext]

theorem platform_coreMove_of_next {n : Platform M} {ref : Nat} {c d : Session} (h : n.units[ref]? = some c)
    (hmove : coreMove c = some (.next d)) : n.coreMove ref = some (.next (n.setUnit ref d)) := by
  simp [Platform.coreMove, h, hmove, mapNext]

/-- Settles O58: the unit's own move goes on, and the platform puts what it leaves in the unit's place. -/
theorem unitsActThroughReferences : Obligations.UnitsActThroughReferences := by
  unfold Obligations.UnitsActThroughReferences
  refine fun M n ref => ⟨fun op c hhost h => ?_, fun c h hcore => ?_, fun hbusy => ?_⟩
  · obtain ⟨d, hmove, -⟩ := hostMove_goes_on op (control_of_hostHasControl hhost h)
    exact ⟨d, _, hmove, platform_hostMove_of_next hhost h hmove, unitMoved_setUnit h d⟩
  · obtain ⟨d, hmove⟩ := coreMove_goes_on hcore
    exact ⟨d, _, hmove, platform_coreMove_of_next h hmove, unitMoved_setUnit h d⟩
  · exact ⟨fun op => by simp [Platform.hostMove, hbusy], by simp [Platform.inspect, hbusy],
      by simp [Platform.register, hbusy]⟩

/-! ### register -/

/-- Settles O53: a registration is an entry made, which is found, and other keys find what they found. -/
theorem registerLastWriteWins : Obligations.RegisterLastWriteWins := by
  unfold Obligations.RegisterLastWriteWins
  refine fun M n ref hunique => ⟨fun c hhost h => ?_, fun hhost h => ?_, fun hbusy => ?_⟩
  · have hfound := find_enter_same n.network c.unitId ref
    refine ⟨_, (register_eq_some n _ ref).mpr ⟨hhost, c, h, rfl⟩, hfound, ?_,
      fun k hk => find_enter_other n.network ref hk, keysUnique_enter n.network _ ref hunique, rfl, rfl⟩
    exact (congrArg (·.bind (n.units[·]?)) hfound).trans h
  · simp [Platform.register, hhost, h]
  · simp [Platform.register, hbusy]

/-! ### send -/

theorem unitOf_eq_some_iff (n : Platform M) (id : Nat) (c : Session) :
    n.unitOf id = some c ↔ ∃ ref, n.network.find id = some ref ∧ n.units[ref]? = some c :=
  Option.bind_eq_some_iff

theorem send_delivers {n : Platform M} {dest : Nat} {c : Session} (source : Nat) (message : M)
    (hhost : n.hostHasControl = true) (hunit : n.unitOf dest = some c) (hrun : c.state.mcu.runState ≠ .running) :
    n.send source dest message =
      (.delivered, { n with receipts := n.receipts ++ [⟨c.unitId, source, message⟩] }) := by
  obtain ⟨ref, hfind, hplace⟩ := (unitOf_eq_some_iff n dest c).mp hunit
  have hreceive : c.receive source message = some (⟨c.unitId, source, message⟩, c) :=
    (session_receive_eq_some source message c _).mpr ⟨control_of_hostHasControl hhost hplace, hrun, rfl⟩
  simp [Platform.send, hhost, hfind, hplace, hreceive, setUnit_self n ref c hplace]

theorem send_to_running {n : Platform M} {dest : Nat} {c : Session} (source : Nat) (message : M)
    (hhost : n.hostHasControl = true) (hunit : n.unitOf dest = some c) (hrun : c.state.mcu.runState = .running) :
    n.send source dest message = (.notAccepted, n) := by
  obtain ⟨ref, hfind, hplace⟩ := (unitOf_eq_some_iff n dest c).mp hunit
  have hreceive : c.receive source message = none := by
    rw [Option.eq_none_iff_forall_ne_some]
    intro r hr
    obtain ⟨-, hnot, -⟩ := (session_receive_eq_some source message c r).mp hr
    exact hnot hrun
  simp [Platform.send, hhost, hfind, hplace, hreceive]

/-- Settles O52: `send` looks for the control, the entry and the run state of the unit, in this order. -/
theorem sendDeliversOrReports : Obligations.SendDeliversOrReports := by
  unfold Obligations.SendDeliversOrReports
  refine fun M n source dest message => ⟨fun hhost hnone => ?_, fun c hhost hunit hrun => ?_,
    fun c hhost hunit hrun => ?_, fun hbusy => ?_⟩
  · simp [Platform.send, hhost, hnone]
  · exact send_delivers source message hhost hunit hrun
  · exact send_to_running source message hhost hunit hrun
  · simp [Platform.send, hbusy]

/-! ### broadcast -/

/-- A message to `dest` is delivered now: the unit found under it has that identifier and is not RUNNING. -/
def Platform.Delivers (n : Platform M) (dest : Nat) : Prop :=
  ∃ c, n.unitOf dest = some c ∧ c.unitId = dest ∧ c.state.mcu.runState ≠ .running

/-- Where each destination can be delivered to, a sequence of deliveries adds one receipt for each, in order: a receipt
changes neither a unit nor the directory, so the destinations after it are as they were. -/
theorem deliverAll_eq {n : Platform M} (source : Nat) (message : M) {order : List Nat} (hhost : n.hostHasControl = true)
    (h : ∀ dest ∈ order, n.Delivers dest) :
    Platform.deliverAll source message order n =
      { n with receipts := n.receipts ++ order.map fun d => ⟨d, source, message⟩ } := by
  induction order generalizing n with
  | nil => simp [Platform.deliverAll]
  | cons dest order ih =>
    obtain ⟨c, hunit, hid, hrun⟩ := h dest List.mem_cons_self
    have hothers : ∀ d ∈ order, n.Delivers d := fun d hd => h d (List.mem_cons_of_mem dest hd)
    rw [Platform.deliverAll, send_delivers source message hhost hunit hrun]
    have hrest := ih (n := { n with receipts := n.receipts ++ [⟨c.unitId, source, message⟩] }) hhost hothers
    simpa [hid] using hrest

theorem broadcast_of_perm {n : Platform M} {source : Nat} (message : M) {order : List Nat}
    (hhost : n.hostHasControl = true) (hperm : order.Perm (n.network.recipients source)) :
    n.broadcast source message order = some (Platform.deliverAll source message order n) := by
  rw [Platform.broadcast, hhost, List.isPerm_iff.mpr hperm, Bool.and_self, if_pos rfl]

/-- Settles O54: a recipient has an entry, whose unit is delivered to, and the recipients are distinct keys. -/
theorem broadcastDeliversOnceToEach : Obligations.BroadcastDeliversOnceToEach := by
  unfold Obligations.BroadcastDeliversOnceToEach
  intro M n source message order hunique hentries
  have hdelivers : ∀ k, (n.network.find k).isSome = true → n.Delivers k := by
    intro k hk
    obtain ⟨ref, hfind⟩ := Option.isSome_iff_exists.mp hk
    obtain ⟨c, hplace, hid, hrun⟩ := hentries _ (mem_directory_of_find hfind)
    exact ⟨c, (unitOf_eq_some_iff n k c).mpr ⟨ref, hfind, hplace⟩, hid, hrun⟩
  have hmem (hperm : order.Perm (n.network.recipients source)) (k : Nat) :
      k ∈ order ↔ k ≠ source ∧ (n.network.find k).isSome = true :=
    hperm.mem_iff.trans (mem_recipients_iff n.network source k)
  refine ⟨fun hhost hperm => ?_, fun _ hnot => ?_, fun hbusy => ?_, fun hperm => ⟨?_, ?_, hmem hperm⟩⟩
  · rw [broadcast_of_perm message hhost hperm,
      deliverAll_eq source message hhost fun k hk => hdelivers k ((hmem hperm k).mp hk).2]
  · simp [Platform.broadcast, List.isPerm_iff, hnot]
  · simp [Platform.broadcast, hbusy]
  · exact hperm.nodup_iff.mpr (hunique.filter _)
  · exact fun hk => ((hmem hperm source).mp hk).1 rfl

/-! ### The invariant of the platform -/

/-- A unit that keeps its invariant and its identifier, and is in a run only where it was or where no unit was. -/
theorem platformInv_setUnit {n : Platform M} (hinv : n.Inv) {ref : Nat} {c d : Session} (h : n.units[ref]? = some c)
    (hd : d.Inv) (hid : d.unitId = c.unitId) (hcontrol : n.hostHasControl = true ∨ c.control = .core) :
    (n.setUnit ref d).Inv := by
  have hmoved := unitMoved_setUnit h d
  have honly : ∀ (j : Nat) (e : Session), (n.setUnit ref d).units[j]? = some e → e.control = .core → j = ref := by
    intro j e hj he
    by_contra hne
    rw [hmoved.others j hne] at hj
    obtain hhost | hcore := hcontrol
    · rw [control_of_hostHasControl hhost hj] at he
      cases he
    · exact hne (hinv.oneInRun j ref e c hj h he hcore)
  constructor
  · intro e he
    obtain he | rfl := List.mem_or_eq_of_mem_set he
    · exact hinv.units e he
    · exact hd
  · exact hinv.keysUnique
  · intro e he
    obtain ⟨u, hplace, hkey⟩ := hinv.entriesRefer e he
    by_cases href : e.2 = ref
    · obtain rfl : c = u := by rw [href, h] at hplace; exact Option.some.inj hplace
      exact ⟨d, by rw [href, hmoved.after], hid.trans hkey⟩
    · exact ⟨u, by rw [hmoved.others _ href, hplace], hkey⟩
  · intro i j e f hi hj he hf
    exact (honly i e hi he).trans (honly j f hj hf).symm

theorem platformInv_receipts {n : Platform M} (hinv : n.Inv) (receipts : List (Receipt M)) :
    ({ n with receipts := receipts } : Platform M).Inv :=
  ⟨hinv.units, hinv.keysUnique, hinv.entriesRefer, hinv.oneInRun⟩

theorem platformInv_register {n n' : Platform M} (hinv : n.Inv) {ref : Nat} (h : n.register ref = some n') :
    n'.Inv := by
  obtain ⟨-, c, hplace, rfl⟩ := (register_eq_some n n' ref).mp h
  refine ⟨hinv.units, keysUnique_enter n.network c.unitId ref hinv.keysUnique, fun e he => ?_, hinv.oneInRun⟩
  obtain ⟨hold, -⟩ | rfl := (mem_enter_iff n.network c.unitId ref e).mp he
  · exact hinv.entriesRefer e hold
  · exact ⟨c, hplace, rfl⟩

theorem platformInv_send {n : Platform M} (hinv : n.Inv) (source dest : Nat) (message : M) :
    (n.send source dest message).2.Inv := by
  obtain ⟨-, hsame⟩ | ⟨c, -, -, -, hdelivered⟩ := send_cases n source dest message
  · rwa [hsame]
  · rw [hdelivered]
    exact platformInv_receipts hinv _

theorem platformInv_deliverAll {n : Platform M} (hinv : n.Inv) (source : Nat) (message : M) (order : List Nat) :
    (Platform.deliverAll source message order n).Inv := by
  induction order generalizing n with
  | nil => exact hinv
  | cons dest order ih => exact ih (platformInv_send hinv source dest message)

theorem platformInv_broadcast {n n' : Platform M} (hinv : n.Inv) {source : Nat} {message : M} {order : List Nat}
    (h : n.broadcast source message order = some n') : n'.Inv := by
  unfold Platform.broadcast at h
  split_ifs at h
  cases h
  exact platformInv_deliverAll hinv source message order

theorem platformInv_create {units : List Session} (h : ∀ c ∈ units, c.Inv ∧ c.control = .host) :
    (Platform.create M units).Inv := by
  constructor
  · exact fun c hc => (h c hc).1
  · simp [Network.empty]
  · simp [Network.empty]
  · intro i j c d hi _ hcore
    have hhost := (h c (List.mem_of_getElem? hi)).2
    rw [hhost] at hcore
    cases hcore

/-- Settles O59: a move replaces one unit by what its own move leaves, and the operations of the network change no
unit. -/
theorem platformKeepsInvariant : Obligations.PlatformKeepsInvariant := by
  unfold Obligations.PlatformKeepsInvariant
  refine fun M => ⟨fun units h => platformInv_create h, fun n n' hinv hop => ?_⟩
  obtain ⟨ref, op, h⟩ | ⟨ref, h⟩ | ⟨ref, h⟩ | ⟨source, dest, message, rfl⟩ | ⟨source, message, order, h⟩ := hop
  · obtain ⟨hhost, c, d, hplace, hmove, rfl⟩ := platform_hostMove_eq_next n n' ref op h
    have hc := hinv.units c (List.mem_of_getElem? hplace)
    exact platformInv_setUnit hinv hplace (inv_hostMove hc hmove) (hostMove_unitId hmove) (.inl hhost)
  · obtain ⟨c, d, hplace, hmove, rfl⟩ := platform_coreMove_eq_next n n' ref h
    have hc := hinv.units c (List.mem_of_getElem? hplace)
    have ⟨hcore, _⟩ := coreMove_eq_next c d hmove
    exact platformInv_setUnit hinv hplace (inv_coreMove hc hmove) (coreMove_unitId hmove) (.inr hcore)
  · exact platformInv_register hinv h
  · exact platformInv_send hinv source dest message
  · exact platformInv_broadcast hinv h

end Sys2Proof.Machine
end
